-- ==== Sys2Proof/Word.lean ====
section
/-! DEFINITION. The bit vectors of the block's interfaces and registers (00_scope.md R7, R8; 30_encoding.md R90). -/

namespace Sys2Proof

/-- A wire byte (format W), a buffer cell, an 8-bit register (R7, R94). -/
abbrev Byte := BitVec 8

/-- The corrector's 16-bit inputs and outputs (R7). -/
abbrev Half := BitVec 16

/-- A Q16.16 value or a calibration register (R7, R190). -/
abbrev Word := BitVec 32

/-- Format X, a receive-event word (R90, R92). -/
abbrev XWord := BitVec 12

/-- Format C, a command word (R90, R100). -/
abbrev CWord := BitVec 72

/-- Format R, a response word (R90, R108). -/
abbrev RWord := BitVec 80

end Sys2Proof
end

