-- ==== Sys2Proof/Config.lean ====
section
/-! DEFINITION. The configuration record `Cfg` of 00_scope.md R6 with its constraints, and the test configuration TC1.
A record that breaks a constraint is no `Cfg`: the model refuses it at construction (93_implementation_defined.md U13). -/

namespace Sys2Proof

/-- The wire constants of R6; the defaults are VL's literals (R94, R95, R98, D38). -/
structure Wire where
  startMark     : Byte := 0x55
  escapeMark    : Byte := 0x54
  escCode0      : Byte := 0x00
  escLit0       : Byte := 0x54
  escCode1      : Byte := 0x01
  escLit1       : Byte := 0x55
  addrBroadcast : Byte := 0xFD
  addrStrobe    : Byte := 0xFE
  addrInvalid   : Byte := 0xFF
  deriving DecidableEq, Repr

/-- The wire constants at VL's literals. -/
def Wire.vl : Wire := {}

/-- What the rules need of the wire constants (R6, last column; D38): the marks differ, the escape codes differ from
START_MARK and from each other, the three special addresses differ. -/
def Wire.legal (w : Wire) : Bool :=
  w.startMark != w.escapeMark && w.escCode0 != w.startMark && w.escCode1 != w.startMark &&
  w.escCode0 != w.escCode1 && w.addrBroadcast != w.addrStrobe && w.addrBroadcast != w.addrInvalid &&
  w.addrStrobe != w.addrInvalid

/-- One row of a length table: the frame length for a first content byte and a module address. -/
structure LenRow where
  first : Byte
  addr  : Byte
  len   : Nat
  deriving DecidableEq, Repr

/-- The injected length function `LEN` (R6, R140) as plain data: the standard one, or any other function, as a table
(a pair that no row lists has length 0). -/
inductive LenFn where
  | std
  | table (rows : List LenRow)
  deriving DecidableEq, Repr

/-- `PAYLOAD_ORDER` (20_memory.md R62, D36): an OPEN parameter that no rule reads. -/
inductive PayloadOrder where
  | msbFirst
  | lsbFirst
  deriving DecidableEq, Repr

/-- The fields of `Cfg` (R6), defaults where the spec has them; no constraint checked yet. -/
structure CfgFields where
  nbuf          : Nat := 2
  buflen        : Nat
  cmdlen        : Nat
  lenFn         : LenFn := .std
  failWindow    : Nat
  failThreshold : Nat
  outmax        : Half := 0xFFFF
  payloadOrder  : PayloadOrder
  wire          : Wire := {}
  deriving DecidableEq, Repr

/-- No length of a table exceeds BUFLEN (R6: `0 <= LEN(c, a) <= BUFLEN`); `LEN_std` is bounded through CMDLEN. -/
def LenFn.fits (buflen : Nat) : LenFn → Bool
  | .std        => true
  | .table rows => rows.all fun r => r.len ≤ buflen

/-- The constraints of R6 (and of the open-parameter table of 92_eei_decisions.md). -/
def CfgFields.legal (c : CfgFields) : Bool :=
  decide (1 ≤ c.nbuf) && decide (c.nbuf ≤ 255) && decide (2 ≤ c.buflen) && decide (c.buflen ≤ 255) &&
  decide (2 ≤ c.cmdlen) && decide (c.cmdlen ≤ c.buflen) && c.lenFn.fits c.buflen &&
  decide (1 ≤ c.failWindow) && decide (c.failThreshold < c.failWindow) &&
  (c.outmax == 0xFFFF || c.outmax == 0x00FF) && c.wire.legal

/-- The configuration of one block: fields that meet R6's constraints. -/
structure Cfg extends CfgFields where
  legal : toCfgFields.legal = true
  deriving DecidableEq, Repr

/-- Building a block from given fields: refused (`none`) where a constraint fails (R6, U13). -/
def Cfg.ofFields? (c : CfgFields) : Option Cfg :=
  if h : c.legal = true then some { toCfgFields := c, legal := h } else none

/-- TC1, the test configuration of R6. PAYLOAD_ORDER is OPEN there too: DESIGN CHOICE `msbFirst`, read by no rule (log 20). -/
def Cfg.tc1 : Cfg where
  nbuf          := 2
  buflen        := 8
  cmdlen        := 6
  lenFn         := .std
  failWindow    := 8
  failThreshold := 2
  outmax        := 0xFFFF
  payloadOrder  := .msbFirst
  wire          := Wire.vl
  legal         := by decide

end Sys2Proof
end

