-- ==== Sys2Proof/Syntax.lean ====
section
/-! DEFINITION. The operations of the block: one constructor of `Instr` per row of opcode_table.json, the three kinds of
input that make it step (00_scope.md R13), and what a receive event's decoding depends on (30_encoding.md R96). -/

namespace Sys2Proof

/-- The decoder state `st` (10_state.md R22). `corrupt` is the code 3, "corrupt decoder state" (R243). -/
inductive DecSt where
  | idle
  | gotStart
  | reading
  | corrupt
  deriving DecidableEq, Repr

/-- The 2-bit encoding of `st` (R22). -/
def DecSt.code : DecSt → BitVec 2
  | .idle     => 0
  | .gotStart => 1
  | .reading  => 2
  | .corrupt  => 3

/-- The state a receive event is decoded by (R96): `fatal`, `st`, `esc`. -/
structure RxContext where
  fatal : Bool
  st    : DecSt
  esc   : Bool
  deriving DecidableEq, Repr

/-- The operations of the block. -/
inductive Instr where
  /-- RXERR (R130): a character with hardware error flags `X[11:8]` (ORE, NE, FE, PE from the top). -/
  | rxerr (flags : BitVec 4) (data : Byte)
  /-- RXSTART (R131): an error-free START_MARK. -/
  | rxstart
  /-- RXSKIP (R132): any other error-free byte while IDLE. -/
  | rxskip (data : Byte)
  /-- RXESC0 (R134): escape code 0 after an ESCAPE_MARK. -/
  | rxesc0
  /-- RXESC1 (R136): escape code 1 after an ESCAPE_MARK. -/
  | rxesc1
  /-- RXESCBAD (R135): any other byte after an ESCAPE_MARK. -/
  | rxescbad (data : Byte)
  /-- RXESC (R133): an ESCAPE_MARK inside a frame. -/
  | rxesc
  /-- RXLIT (R137): an ordinary byte inside a frame. -/
  | rxlit (data : Byte)
  /-- NOP (R170). -/
  | nop
  /-- POLL (R171). -/
  | poll
  /-- RDBYTE (R173): `offset = b[7:0]`. -/
  | rdbyte (offset : Byte)
  /-- RELEASE (R175). -/
  | release
  /-- SETADDR (R176): `addr = b[7:0]`. -/
  | setaddr (addr : Byte)
  /-- CALW (R210): `index = a[3:0]`, `value = b`. -/
  | calw (index : BitVec 4) (value : Word)
  /-- CALR (R211): `index = a[3:0]`. -/
  | calr (index : BitVec 4)
  /-- CORRECT (R212): `x = a[31:16]`, `y = a[15:0]`, `lum = Y = b[15:0]`. -/
  | correct (x y lum : Half)
  /-- QADD (R192). -/
  | qadd (a b : Word)
  /-- QSUB (R193). -/
  | qsub (a b : Word)
  /-- QMUL (R194). -/
  | qmul (a b : Word)
  /-- QDIV (R195). -/
  | qdiv (a b : Word)
  /-- QCMP (R196). -/
  | qcmp (a b : Word)
  /-- QMIN (R197). -/
  | qmin (a b : Word)
  /-- QMAX (R198). -/
  | qmax (a b : Word)
  deriving DecidableEq, Repr

/-- One input of the block, one atomic step (R12, R13): a receive event of the RX agent, a command of the consumer
agent, or the reset input. -/
inductive Input where
  | rx (x : XWord)
  | cmd (c : CWord)
  | reset
  deriving DecidableEq, Repr

end Sys2Proof
end

