-- ==== Sys2Proof/WellFormed.lean ====
section
/-! DEFINITION. Which terms of `Instr` an encoding stands for (the value conditions of 30_encoding.md R96), and in which
decoder state each receive operation is selected (the `state_condition` of opcode_table.json). -/

namespace Sys2Proof

/-- The value conditions: an RXERR has a flag set, RXSKIP is no START_MARK, RXESCBAD is neither an escape code nor a
START_MARK, RXLIT is no mark (R130, R132, R135, R137). A command has none: every operand value is legal (R112). -/
def Instr.wf (w : Wire) : Instr → Bool
  | .rxerr flags _  => flags != 0
  | .rxskip data    => data != w.startMark
  | .rxescbad data  => data != w.escCode0 && data != w.escCode1 && data != w.startMark
  | .rxlit data     => data != w.startMark && data != w.escapeMark
  | .rxstart        => true
  | .rxesc0         => true
  | .rxesc1         => true
  | .rxesc          => true
  | .nop            => true
  | .poll           => true
  | .rdbyte _       => true
  | .release        => true
  | .setaddr _      => true
  | .calw _ _       => true
  | .calr _         => true
  | .correct _ _ _  => true
  | .qadd _ _       => true
  | .qsub _ _       => true
  | .qmul _ _       => true
  | .qdiv _ _       => true
  | .qcmp _ _       => true
  | .qmin _ _       => true
  | .qmax _ _       => true

/-- A frame is in progress: `st` is GOT_START or READING. -/
def DecSt.inFrame : DecSt → Bool
  | .gotStart => true
  | .reading  => true
  | .idle     => false
  | .corrupt  => false

/-- A receive event is decoded at all: `fatal = 0` and `st != 3` (R96 lines 1 and 2). -/
def RxContext.live (c : RxContext) : Bool := !c.fatal && c.st != .corrupt

/-- The decoder states in which the operation can be selected (R96, opcode_table.json "state_condition"). -/
def Instr.selectableIn (c : RxContext) : Instr → Bool
  | .rxerr _ _     => c.live
  | .rxstart       => c.live
  | .rxskip _      => c.live && c.st == .idle
  | .rxesc0        => c.live && c.st.inFrame && c.esc
  | .rxesc1        => c.live && c.st.inFrame && c.esc
  | .rxescbad _    => c.live && c.st.inFrame && c.esc
  | .rxesc         => c.live && c.st.inFrame && !c.esc
  | .rxlit _       => c.live && c.st.inFrame && !c.esc
  | .nop           => true
  | .poll          => true
  | .rdbyte _      => true
  | .release       => true
  | .setaddr _     => true
  | .calw _ _      => true
  | .calr _        => true
  | .correct _ _ _ => true
  | .qadd _ _      => true
  | .qsub _ _      => true
  | .qmul _ _      => true
  | .qdiv _ _      => true
  | .qcmp _ _      => true
  | .qmin _ _      => true
  | .qmax _ _      => true

/-- The operation is a receive operation (format X); the others are commands (format C). -/
def Instr.isReceive : Instr → Bool
  | .rxerr _ _     => true
  | .rxstart       => true
  | .rxskip _      => true
  | .rxesc0        => true
  | .rxesc1        => true
  | .rxescbad _    => true
  | .rxesc         => true
  | .rxlit _       => true
  | .nop           => false
  | .poll          => false
  | .rdbyte _      => false
  | .release       => false
  | .setaddr _     => false
  | .calw _ _      => false
  | .calr _        => false
  | .correct _ _ _ => false
  | .qadd _ _      => false
  | .qsub _ _      => false
  | .qmul _ _      => false
  | .qdiv _ _      => false
  | .qcmp _ _      => false
  | .qmin _ _      => false
  | .qmax _ _      => false

end Sys2Proof
end

