-- ==== Sys2Proof/Decode.lean ====
section
/-! DEFINITION. Decoding of receive-event words and command words (30_encoding.md R92 to R106, R112), total, rejecting by
name; then the encoder, written from the same tables; then the host's reading of an opcode-table word. -/

namespace Sys2Proof

/-- Why an input selects no operation of the opcode table. -/
inductive Reject where
  /-- `fatal = 1`: the receive event is ignored (R96 line 1, R244). -/
  | fatalIgnored
  /-- `st = 3`: corrupt decoder state (R96 line 2, R243). -/
  | corruptState
  /-- A command word whose `op` is outside the opcode map (R112). -/
  | reservedOp (op : Byte)
  deriving DecidableEq, Repr

/-- What an input is decoded to. -/
inductive Decoded where
  | op (i : Instr)
  | resetInput
  | rejected (why : Reject)
  deriving DecidableEq, Repr

/-- `X[11:8]`, the error flags ORE, NE, FE, PE (R92). -/
def xFlags (x : XWord) : BitVec 4 := x.extractLsb' 8 4

/-- `X[7:0]`, the received byte (R92). -/
def xData (x : XWord) : Byte := x.extractLsb' 0 8

/-- `C[71:64]` (R100). -/
def opField (c : CWord) : Byte := c.extractLsb' 64 8

/-- `C[63:32]` (R100). -/
def aField (c : CWord) : Word := c.extractLsb' 32 32

/-- `C[31:0]` (R100). -/
def bField (c : CWord) : Word := c.extractLsb' 0 32

/-- Decoding a receive-event word: the first line of R96's list that applies. -/
def decodeRx (w : Wire) (ctx : RxContext) (x : XWord) : Decoded :=
  if ctx.fatal then .rejected .fatalIgnored
  else if ctx.st = .corrupt then .rejected .corruptState
  else if xFlags x ≠ 0 then .op (.rxerr (xFlags x) (xData x))
  else if xData x = w.startMark then .op .rxstart
  else if ctx.st = .idle then .op (.rxskip (xData x))
  else if ctx.esc then
    if xData x = w.escCode0 then .op .rxesc0
    else if xData x = w.escCode1 then .op .rxesc1
    else .op (.rxescbad (xData x))
  else if xData x = w.escapeMark then .op .rxesc
  else .op (.rxlit (xData x))

/-- The opcode map of R101 with the operand fields each command uses (R106), on `a` and `b`. -/
def opcodeMap : List (Byte × (Word → Word → Instr)) :=
  [ (0x00, fun _ _ => .nop),
    (0x01, fun _ _ => .poll),
    (0x02, fun _ b => .rdbyte (b.extractLsb' 0 8)),
    (0x03, fun _ _ => .release),
    (0x04, fun _ b => .setaddr (b.extractLsb' 0 8)),
    (0x10, fun a b => .calw (a.extractLsb' 0 4) b),
    (0x11, fun a _ => .calr (a.extractLsb' 0 4)),
    (0x12, fun a b => .correct (a.extractLsb' 16 16) (a.extractLsb' 0 16) (b.extractLsb' 0 16)),
    (0x20, .qadd),
    (0x21, .qsub),
    (0x22, .qmul),
    (0x23, .qdiv),
    (0x24, .qcmp),
    (0x25, .qmin),
    (0x26, .qmax) ]

/-- Decoding a command word: the opcode map, every other `op` reserved (R112). -/
def decodeCmd (c : CWord) : Decoded :=
  match opcodeMap.lookup (opField c) with
  | some f => .op (f (aField c) (bField c))
  | none   => .rejected (.reservedOp (opField c))

/-- Decoding any input in the decoder state `ctx`. -/
def decodeInput (w : Wire) (ctx : RxContext) : Input → Decoded
  | .rx x  => decodeRx w ctx x
  | .cmd c => decodeCmd c
  | .reset => .resetInput

/-! ### The encoder -/

/-- The error-free receive-event word of a byte. -/
def xByte (d : Byte) : XWord := (0 : BitVec 4) ++ d

/-- The command word `op ++ a ++ b` (R100, R116). -/
def cWord (op : Byte) (a b : Word) : CWord := op ++ (a ++ b)

/-- The input word of an operation, unused operand bits 0 (R92, R101, R106, R116). -/
def encode (w : Wire) : Instr → Input
  | .rxerr flags data => .rx (flags ++ data)
  | .rxstart          => .rx (xByte w.startMark)
  | .rxskip data      => .rx (xByte data)
  | .rxesc0           => .rx (xByte w.escCode0)
  | .rxesc1           => .rx (xByte w.escCode1)
  | .rxescbad data    => .rx (xByte data)
  | .rxesc            => .rx (xByte w.escapeMark)
  | .rxlit data       => .rx (xByte data)
  | .nop              => .cmd (cWord 0x00 0 0)
  | .poll             => .cmd (cWord 0x01 0 0)
  | .rdbyte offset    => .cmd (cWord 0x02 0 (offset.setWidth 32))
  | .release          => .cmd (cWord 0x03 0 0)
  | .setaddr addr     => .cmd (cWord 0x04 0 (addr.setWidth 32))
  | .calw index value => .cmd (cWord 0x10 (index.setWidth 32) value)
  | .calr index       => .cmd (cWord 0x11 (index.setWidth 32) 0)
  | .correct x y lum  => .cmd (cWord 0x12 (x ++ y) (lum.setWidth 32))
  | .qadd a b         => .cmd (cWord 0x20 a b)
  | .qsub a b         => .cmd (cWord 0x21 a b)
  | .qmul a b         => .cmd (cWord 0x22 a b)
  | .qdiv a b         => .cmd (cWord 0x23 a b)
  | .qcmp a b         => .cmd (cWord 0x24 a b)
  | .qmin a b         => .cmd (cWord 0x25 a b)
  | .qmax a b         => .cmd (cWord 0x26 a b)

/-! ### Words of the opcode table -/

/-- The input that is the opcode table's word `w` of `nbits` bits: up to two bytes a receive-event word (format X, 12
bits), above that a command word (format C, 72 bits). -/
def tableInput (nbits w : Nat) : Option Input :=
  if nbits ≤ 16 then
    if w < 2 ^ 12 then some (.rx (BitVec.ofNat 12 w)) else none
  else
    if w < 2 ^ 72 then some (.cmd (BitVec.ofNat 72 w)) else none

/-- The decoder state in which a receive-event word is read as an opcode-table word: one in which the row whose pattern
fixes all twelve bits is selected (RXESC0, RXESC1 after an ESCAPE_MARK; RXESC in GOT_START), for every other word the
state after reset. The table's word alone does not say: R96 decodes by state. DESIGN CHOICE, log 14. -/
def tableContext (w : Wire) (x : XWord) : RxContext :=
  if xFlags x ≠ 0 ∨ xData x = w.startMark then { fatal := false, st := .idle, esc := false }
  else if xData x = w.escCode0 ∨ xData x = w.escCode1 then { fatal := false, st := .gotStart, esc := true }
  else if xData x = w.escapeMark then { fatal := false, st := .gotStart, esc := false }
  else { fatal := false, st := .idle, esc := false }

/-- The operation of a decoding, if there is one. -/
def Decoded.instr? : Decoded → Option Instr
  | .op i       => some i
  | .resetInput => none
  | .rejected _ => none

/-- The instruction the decoder reads from an opcode-table word (bits numbered from 0 at the least significant end). -/
def decodeTableWord (nbits w : Nat) : Option Instr :=
  match tableInput nbits w with
  | some (.rx x)  => (decodeRx Wire.vl (tableContext Wire.vl x) x).instr?
  | some (.cmd c) => (decodeCmd c).instr?
  | some .reset   => none
  | none          => none

end Sys2Proof
end

