-- ==== Sys2Proof/Machine/State.lean ====
section
/-! DEFINITION. The machine's state as plain data: the table of 10_state.md R20, the configuration it runs with, and its
two interfaces (inputs not yet processed, response words returned); the reasons a step can stop; the state after reset. -/

namespace Sys2Proof.Machine

/-- The frame buffer memory `BUF` (R35, R60) as address and byte pairs, keyed by `cellKey` (Machine/Ops.lean). -/
abbrev Memory := List Host.Cell

/-- What a cell not listed reads as: R41 leaves the contents unspecified and 93 U1 lets a model take zero.
DESIGN CHOICE, log 8. -/
def Memory.unlisted : Byte := 0

/-- The canonical form: addresses strictly rising, no entry equal to what an unlisted address reads as. -/
abbrev Memory.wf (m : Memory) : Prop :=
  m.Pairwise (fun c d => c.1 < d.1) ∧ ∀ c ∈ m, c.2 ≠ Memory.unlisted

/-- Why the machine stops. All three belong to states that break an invariant of R40 and that no run reaches. -/
inductive Fault where
  /-- Raised by a store of a content byte or by RDBYTE for a cell outside `BUF` (R60, R64). Safe: unreachable (R40). -/
  | noSuchCell (k o : Nat)
  /-- Raised by a completion, POLL or RDBYTE for a buffer index outside `flen` (R20, R30). Safe: unreachable (R40). -/
  | noSuchBuffer (k : Nat)
  /-- Raised by RXLIT, RXESC0, RXESC1 for a content byte with no frame in progress (R138: "never called in IDLE").
  Safe: R96 selects none of them there. -/
  | contentOutsideFrame
  deriving DecidableEq, Repr

/-- Why the model gives an operation no meaning. -/
inductive Refusal where
  /-- An instruction whose arm of `exec` has no meaning yet. Safe. No arm is left so. -/
  | notModelled (mnemonic : String)
  deriving DecidableEq, Repr

/-- The state of one block. -/
structure State where
  /-- The configuration `Cfg` (00_scope.md R6, R14): a parameter, written by no step. The model's own field (log 1). -/
  cfg : Cfg
  /-- The decoder state (R22). -/
  st : DecSt
  /-- The previous byte of the current frame was an ESCAPE_MARK (R23). -/
  esc : Bool
  /-- Content bytes of the current frame accepted so far (R24). -/
  pos : Byte
  /-- Expected length of the current frame (R25). -/
  explen : Byte
  /-- Store enable (R29). -/
  sten : Bool
  /-- Write cursor (R26). -/
  wr : Nat
  /-- Read cursor (R27). -/
  rd : Nat
  /-- Complete frames stored and not released (R28). -/
  pending : Nat
  /-- `flen[k]`, k = 0, 1, ... (R30). -/
  flen : List Byte
  /-- `BUF` (R35, R60). -/
  buf : Memory
  /-- Overflow flag (R31). -/
  ovf : Bool
  /-- The sliding failure window, bit 0 (the newest event) first (R33). -/
  fwin : List Bool
  /-- The fatal condition (R32). -/
  fatal : Bool
  /-- The module's bus address (R34). -/
  myaddr : Byte
  /-- `CAL[0..11]` (R36). -/
  cal : Vector Word 12
  /-- One valid bit per calibration register (R37). -/
  calv : BitVec 12
  /-- The inputs the two agents and the reset input deliver, next one first: one interleaving (R12, R13, R70). The
  model's own field (log 5). -/
  inputs : List Input
  /-- The response words returned so far, oldest first (R108). The model's own field (log 7). -/
  responses : List RWord
  deriving DecidableEq, Repr

/-- The state after reset of a block with configuration `c`, nothing delivered and nothing returned (10_state.md R41,
70_reset_and_hazards.md R260). `flen`, `BUF` and `CAL` are unspecified there: zero here, DESIGN CHOICE, log 8 and 9. -/
def State.resetOf (c : Cfg) : State where
  cfg       := c
  st        := .idle
  esc       := false
  pos       := 0
  explen    := 0
  sten      := false
  wr        := 0
  rd        := 0
  pending   := 0
  flen      := List.replicate c.nbuf 0
  buf       := []
  ovf       := false
  fwin      := List.replicate c.failWindow false
  fatal     := false
  myaddr    := 0xFF
  cal       := Vector.replicate 12 0
  calv      := 0
  inputs    := []
  responses := []

/-- The machine right after reset, in the test configuration TC1 (DESIGN CHOICE of the configuration, log 2). -/
def State.reset : State := State.resetOf Cfg.tc1

end Sys2Proof.Machine
end

