-- ==== Sys2Proof/Machine/Flags.lean ====
section
/-! DEFINITION. The response word: status codes (30_encoding.md R109), arithmetic flags (R110), the word itself (R108),
POLL's result field (R111). -/

namespace Sys2Proof.Machine

/-- The status codes by name (R109). The three kinds of other subsystems are named and never returned. -/
inductive Status where
  | ok
  | indexOutOfRange
  | wrongCommand
  | noConfiguration
  | flashWriteFailed
  | commandOverflow
  | missingArguments
  | argumentFormat
  | empty
  | fatal
  deriving DecidableEq, Repr

/-- The numbers of the status codes (R109). -/
def statusCode : Status → Byte
  | .ok               => 0x00
  | .indexOutOfRange  => 0x01
  | .wrongCommand     => 0x02
  | .noConfiguration  => 0x03
  | .flashWriteFailed => 0x04
  | .commandOverflow  => 0x05
  | .missingArguments => 0x06
  | .argumentFormat   => 0x07
  | .empty            => 0x08
  | .fatal            => 0x09

/-- The flags field: `SAT` bit 0, `DIVZ` bit 1, `DEGEN` bit 2, bits 7:3 zero (R110). -/
def flagsByte (sat divz degen : Bool) : Byte :=
  (0 : BitVec 5) ++ BitVec.ofBool degen ++ BitVec.ofBool divz ++ BitVec.ofBool sat

/-- The response word `status ++ flags ++ r0 ++ r1` (R108). -/
def responseWord (status : Status) (flags : Byte) (r0 r1 : Word) : RWord :=
  statusCode status ++ flags ++ r0 ++ r1

/-- POLL's `r0`: `zext_32(zext_8(pending) ++ zext_8(len) ++ 0b00000 ++ fatal ++ ovf ++ avail)` (R111, R171). -/
def pollWord (pending : Nat) (len : Byte) (fatal ovf : Bool) : Word :=
  (BitVec.ofNat 8 pending ++ len ++ (0 : BitVec 5) ++ BitVec.ofBool fatal ++ BitVec.ofBool ovf ++
    BitVec.ofBool (decide (pending > 0))).setWidth 32

/-- `satflag(z)` (00_scope.md R9): z lies outside the 32-bit two's complement range. -/
def satFlag (z : Int) : Bool := decide (z > 2147483647) || decide (z < -2147483648)

end Sys2Proof.Machine
end

