-- ==== Sys2Proof/Machine/Operands.lean ====
section
/-! DEFINITION. Operand assembly (30_encoding.md R106) and the length function (40_rx_decoder.md R140). -/

namespace Sys2Proof.Machine

/-- RDBYTE's offset `u(b[7:0])` (R106). -/
abbrev offsetOf (o : Byte) : Nat := o.toNat

/-- CALW's and CALR's index `u(a[3:0])` (R106). -/
abbrev calIndex (i : BitVec 4) : Nat := i.toNat

/-- CORRECT's step 1 on one input: `zext_32`, the Q16.16 value x / 65536 (R106, R213). -/
def toQ (x : Half) : Word := x.setWidth 32

/-- `LEN_std(c, a)` (R140), the tests in its order. -/
def lenStd (cfg : Cfg) (c a : Byte) : Nat :=
  if c = cfg.wire.addrStrobe then 1
  else if c = cfg.wire.addrInvalid then 0
  else if c = cfg.wire.addrBroadcast then cfg.cmdlen
  else if c = a then cfg.cmdlen
  else 0

/-- A length table at (c, a): its first row for the pair, 0 where it lists none. -/
def lenTable (rows : List LenRow) (c a : Byte) : Nat :=
  match rows.find? (fun r => r.first == c && r.addr == a) with
  | some r => r.len
  | none   => 0

/-- The injected length function `LEN(c, a)` of the configuration (R6, R140). -/
def lenOf (cfg : Cfg) (c a : Byte) : Nat :=
  match cfg.lenFn with
  | .std        => lenStd cfg c a
  | .table rows => lenTable rows c a

end Sys2Proof.Machine
end

