-- ==== Sys2Proof/Machine/Ops.lean ====
section
/-! DEFINITION. The shared operations: memory (20_memory.md), the registers, a failure event and the frame of every
receive event (40_rx_decoder.md R139, 60_exceptions.md R236, R240, R241), content bytes and completion (R138 to R143),
answering a command (00_scope.md R11), reset (R260), and taking the next input. -/

namespace Sys2Proof.Machine

/-! ### Memory -/

/-- The key of cell `BUF[k][o]`; offsets are below BUFLEN <= 255, so no two cells share one. DESIGN CHOICE, log 10. -/
def cellKey (k o : Nat) : Nat := 256 * k + o

/-- The byte at a key. -/
def Memory.read : Memory → Nat → Byte
  | [],          _ => Memory.unlisted
  | (b, v) :: m, a => if b = a then v else Memory.read m a

/-- Putting an entry in its place, one for the same key replaced; the value an unlisted cell reads as is not listed. -/
def Memory.write : Memory → Nat → Byte → Memory
  | [],          a, v => if v = Memory.unlisted then [] else [(a, v)]
  | (b, u) :: m, a, v =>
    if a < b then (if v = Memory.unlisted then (b, u) :: m else (a, v) :: (b, u) :: m)
    else if a = b then (if v = Memory.unlisted then m else (a, v) :: m)
    else (b, u) :: Memory.write m a v

/-- Cell (k, o) exists: k in 0..NBUF-1, o in 0..BUFLEN-1 (R60). -/
def cellExists (cfg : Cfg) (k o : Nat) : Bool := decide (k < cfg.nbuf) && decide (o < cfg.buflen)

/-- `MemRead((k, o), 1)` (00_scope.md R10, R63). -/
def State.loadByte (s : State) (k o : Nat) : Except Fault Byte :=
  if cellExists s.cfg k o then .ok (s.buf.read (cellKey k o)) else .error (.noSuchCell k o)

/-- `MemWrite((k, o), 1, v)` (00_scope.md R10, R63). -/
def State.storeByte (s : State) (k o : Nat) (v : Byte) : Except Fault State :=
  if cellExists s.cfg k o then .ok { s with buf := s.buf.write (cellKey k o) v } else .error (.noSuchCell k o)

/-- `BUF[k][o]` as a reader of the state sees it. -/
def State.cell (s : State) (k o : Nat) : Byte := s.buf.read (cellKey k o)

/-! ### Registers -/

/-- A cursor's next value: modulo NBUF (R26, R27). -/
def nextCursor (cfg : Cfg) (k : Nat) : Nat := (k + 1) % cfg.nbuf

/-- Reading `flen[k]` (R30). -/
def State.readLen (s : State) (k : Nat) : Except Fault Byte :=
  match s.flen[k]? with
  | some l => .ok l
  | none   => .error (.noSuchBuffer k)

/-- Writing `flen[k]` (R30). -/
def State.writeLen (s : State) (k : Nat) (l : Byte) : Except Fault State :=
  if k < s.flen.length then .ok { s with flen := s.flen.set k l } else .error (.noSuchBuffer k)

/-- `calv[i]` (R37). -/
def State.calValid (s : State) (i : Nat) : Bool := s.calv.getLsbD i

/-- `CAL[i]` (R36), i in 0..11. -/
def State.readCal (s : State) (i : Nat) : Word := s.cal.getD i 0

/-- `CAL[i] <- v; calv[i] <- 1` (R210), i in 0..11. -/
def State.writeCal (s : State) (i : Nat) (v : Word) : State :=
  { s with cal := s.cal.setIfInBounds i v, calv := s.calv ||| (1#12 <<< i) }

/-- The level output `fatal_o` (R42). -/
def State.fatalO (s : State) : Bool := s.fatal

/-- The level output `avail_o` (R42). -/
def State.availO (s : State) : Bool := decide (s.pending > 0)

/-- What decoding a receive event depends on (R96). -/
def State.rxContext (s : State) : RxContext := { fatal := s.fatal, st := s.st, esc := s.esc }

/-! ### Answering a command -/

/-- Returning one response word (R11, R108). -/
def State.respond (s : State) (status : Status) (r0 r1 : Word) (flags : Byte := 0) : State :=
  { s with responses := s.responses ++ [responseWord status flags r0 r1] }

/-- A reserved `op`: no state change, WrongCommand (30_encoding.md R112). -/
def wrongCommand (s : State) : Host.Outcome State Fault Refusal := .next (s.respond .wrongCommand 0 0)

/-! ### Failure events and the frame of a receive event -/

/-- The two causes of a failure event (60_exceptions.md R231). -/
inductive FailureCause where
  | hwError (flags : BitVec 4)
  | malformedEscape
  deriving DecidableEq, Repr

/-- What a receive operation leaves: the state, and the event's failure bit f. -/
structure RxDone where
  state  : State
  failed : Bool
  deriving DecidableEq, Repr

/-- `st <- IDLE; esc <- 0`: aborting the frame in progress (R11, R236). -/
def State.abortFrame (s : State) : State := { s with st := .idle, esc := false }

/-- TAKING A FAILURE EVENT, `raise Failure(cause)` (R11, R236): the frame is aborted and f is 1; the cause is recorded
nowhere (R231). The return is R237: nothing, the next START_MARK resumes. -/
def raiseFailure (_cause : FailureCause) (s : State) : Except Fault RxDone :=
  .ok { state := s.abortFrame, failed := true }

/-- `popcount` of the window (R9). -/
def popcount : List Bool → Nat
  | []          => 0
  | true :: bs  => popcount bs + 1
  | false :: bs => popcount bs

/-- `trunc_W((fwin << 1) | f)` (R240), W = FAIL_WINDOW. -/
def shiftWindow (w : Nat) (fwin : List Bool) (f : Bool) : List Bool := (f :: fwin).take w

/-- The end of every receive event: the window takes the failure bit, and past the threshold the block goes fatal
(R240, R241). -/
def State.recordEvent (s : State) (f : Bool) : State :=
  { s with
    fwin  := shiftWindow s.cfg.failWindow s.fwin f
    fatal := s.fatal || decide (popcount (shiftWindow s.cfg.failWindow s.fwin f) > s.cfg.failThreshold) }

/-- The fatal condition entered for a corrupt decoder state: `fatal <- 1` and nothing else (R243). -/
def State.goFatal (s : State) : State := { s with fatal := true }

/-- A receive event that decodes to no operation because `fatal = 1`: ignored entirely (R244). -/
def ignoredEvent (s : State) : Host.Outcome State Fault Refusal := .next s

/-- A receive event that finds `st = 3` (R243). -/
def corruptEvent (s : State) : Host.Outcome State Fault Refusal := .next s.goFatal

/-- The frame of every receive event around an operation's own middle part (R139). -/
def onRx (middle : State → Except Fault RxDone) (s : State) : Host.Outcome State Fault Refusal :=
  if s.fatal then ignoredEvent s
  else if s.st = .corrupt then corruptEvent s
  else
    match middle s with
    | .error r => .fault r
    | .ok d    => .next (d.state.recordEvent d.failed)

/-- An operation that raises no failure: f = 0. -/
def noFailure (r : Except Fault State) : Except Fault RxDone :=
  match r with
  | .error e => .error e
  | .ok s    => .ok { state := s, failed := false }

/-! ### Content bytes -/

/-- Storing a content byte at `(wr, o)` while `sten = 1`, nothing otherwise (R64). -/
def State.storeContent (s : State) (o : Nat) (c : Byte) : Except Fault State :=
  if s.sten then s.storeByte s.wr o c else .ok s

/-- `complete()` (R143). -/
def State.complete (s : State) : Except Fault State :=
  if s.sten then
    match s.writeLen s.wr s.explen with
    | .error r => .error r
    | .ok t    => .ok { t with wr := nextCursor t.cfg t.wr, pending := t.pending + 1, st := .idle }
  else .ok { s with ovf := true, st := .idle }

/-- The first content byte of a frame (R141). -/
def State.firstContent (s : State) (c : Byte) : Except Fault State :=
  let len := lenOf s.cfg c s.myaddr
  if len = 0 then .ok { s with st := .idle }
  else
    let s1 := { s with sten := decide (s.pending < s.cfg.nbuf), explen := BitVec.ofNat 8 len }
    match s1.storeContent 0 c with
    | .error r => .error r
    | .ok s2   =>
      let s3 := { s2 with pos := 1 }
      if len = 1 then s3.complete else .ok { s3 with st := .reading }

/-- A later content byte (R142). -/
def State.laterContent (s : State) (c : Byte) : Except Fault State :=
  match s.storeContent s.pos.toNat c with
  | .error r => .error r
  | .ok s1   =>
    let s2 := { s1 with pos := s1.pos + 1 }
    if s2.pos = s2.explen then s2.complete else .ok s2

/-- `content(c)` (R138). -/
def State.content (s : State) (c : Byte) : Except Fault State :=
  match s.st with
  | .gotStart => s.firstContent c
  | .reading  => s.laterContent c
  | .idle     => .error .contentOutsideFrame
  | .corrupt  => .error .contentOutsideFrame

/-! ### Reset and input -/

/-- The reset input (R260): every item of R41's table. The configuration is no state; inputs still to come and responses
already returned are outside the block. -/
def State.takeReset (s : State) : State :=
  { State.resetOf s.cfg with inputs := s.inputs, responses := s.responses }

/-- The reset operation as a step. -/
def resetInput (s : State) : Host.Outcome State Fault Refusal := .next s.takeReset

/-- No input delivered: nothing happens (R14: the block never halts of itself). DESIGN CHOICE, log 6. -/
def idleStep (s : State) : Host.Outcome State Fault Refusal := .next s

/-- Taking the next input, if one is delivered. -/
def State.takeInput (s : State) : Option (Input × State) :=
  match s.inputs with
  | []        => none
  | i :: rest => some (i, { s with inputs := rest })

/-- Delivering an input ahead of the others. -/
def State.deliver (s : State) (i : Input) : State := { s with inputs := i :: s.inputs }

/-- Delivering an opcode-table word so that the next step runs it. A receive-event word is decoded by state: where the
state at hand decodes it to another operation than the table's reading of it, the decoder is put into the state of that
reading (log 14). -/
def State.deliverTableWord (s : State) (nbits w : Nat) : State :=
  match tableInput nbits w with
  | some (.rx x)  =>
    let ctx := tableContext s.cfg.wire x
    if decodeRx s.cfg.wire s.rxContext x = decodeRx s.cfg.wire ctx x then s.deliver (.rx x)
    else { s with fatal := ctx.fatal, st := ctx.st, esc := ctx.esc, pos := 0, inputs := .rx x :: s.inputs }
  | some (.cmd c) => s.deliver (.cmd c)
  | some .reset   => s
  | none          => s

/-- What happens for an input that selects no operation of the opcode table. -/
def onReject (why : Reject) (s : State) : Host.Outcome State Fault Refusal :=
  match why with
  | .fatalIgnored => ignoredEvent s
  | .corruptState => corruptEvent s
  | .reservedOp _ => wrongCommand s

end Sys2Proof.Machine
end

