-- ==== Sys2Proof/Machine/Consumer.lean ====
section
/-! DEFINITION. The consumer commands of the Frame Receiver (41_consumer.md R170 to R177). -/

namespace Sys2Proof.Machine

/-- NOP (R170). -/
def execNop (s : State) : Host.Outcome State Fault Refusal := .next (s.respond .ok 0 0)

/-- POLL's `len`: `flen[rd]` if a frame is pending, else 0 (R171). -/
def State.headLen (s : State) : Except Fault Byte :=
  if s.pending > 0 then s.readLen s.rd else .ok 0

/-- POLL (R171): report, and clear `ovf` when it is reported; Fatal before CommandOverflow before OK (R247). -/
def execPoll (s : State) : Host.Outcome State Fault Refusal :=
  match s.headLen with
  | .error r => .fault r
  | .ok len  =>
    let r0 := pollWord s.pending len s.fatal s.ovf
    if s.fatal then .next (s.respond .fatal r0 0)
    else if s.ovf then .next (State.respond { s with ovf := false } .commandOverflow r0 0)
    else .next (s.respond .ok r0 0)

/-- RDBYTE (R173): one byte of the oldest pending frame. -/
def execRdbyte (offset : Byte) (s : State) : Host.Outcome State Fault Refusal :=
  if s.fatal then .next (s.respond .fatal 0 0)
  else if s.pending = 0 then .next (s.respond .indexOutOfRange 0 0)
  else
    match s.readLen s.rd with
    | .error r => .fault r
    | .ok len  =>
      if offsetOf offset ≥ len.toNat then .next (s.respond .indexOutOfRange 0 0)
      else
        match s.loadByte s.rd (offsetOf offset) with
        | .error r => .fault r
        | .ok v    => .next (s.respond .ok (v.setWidth 32) 0)

/-- RELEASE (R175): `rd` advances and `pending` is decremented. -/
def execRelease (s : State) : Host.Outcome State Fault Refusal :=
  if s.fatal then .next (s.respond .fatal 0 0)
  else if s.pending = 0 then .next (s.respond .empty 0 0)
  else .next (State.respond { s with rd := nextCursor s.cfg s.rd, pending := s.pending - 1 } .ok 0 0)

/-- SETADDR (R176): any 8-bit value is accepted. -/
def execSetaddr (addr : Byte) (s : State) : Host.Outcome State Fault Refusal :=
  if s.fatal then .next (s.respond .fatal 0 0)
  else .next (State.respond { s with myaddr := addr } .ok 0 0)

end Sys2Proof.Machine
end

