-- ==== Sys2Proof/Machine/Arith.lean ====
section
/-! DEFINITION. The Q16.16 primitives (42_fixedpoint.md), exact on integers and narrowed once at the end. -/

namespace Sys2Proof.Machine

/-- A Q16.16 result with the flags its operation reports (R110, R200). -/
structure QResult where
  value : Word
  sat   : Bool
  divz  : Bool := false
  deriving DecidableEq, Repr

/-- `sat32(z)` (00_scope.md R9). -/
def sat32 (z : Int) : Word :=
  if z > 2147483647 then 0x7FFFFFFF
  else if z < -2147483648 then 0x80000000
  else BitVec.ofInt 32 z

/-- The overflow law (R191): an exact result z in units of 1/65536, saturated, with its SAT flag. -/
def saturate (z : Int) : QResult := { value := sat32 z, sat := satFlag z }

/-- 0.0 (R190). -/
def qZero : Word := 0x00000000
/-- 1.0 (R190). -/
def qOne : Word := 0x00010000
/-- The largest value (R190). -/
def qMaxV : Word := 0x7FFFFFFF
/-- The smallest value (R190). -/
def qMinV : Word := 0x80000000

/-- `a + b` (R192). -/
def qAdd (a b : Word) : QResult := saturate (a.toInt + b.toInt)

/-- `a - b` (R193). -/
def qSub (a b : Word) : QResult := saturate (a.toInt - b.toInt)

/-- `a * b`: the exact product, rounded toward minus infinity (R194, R199). -/
def qMul (a b : Word) : QResult := saturate (Int.fdiv (a.toInt * b.toInt) 65536)

/-- `a / b`: the exact quotient rounded toward zero; division by zero saturates by the dividend's sign (R195, R199). -/
def qDiv (a b : Word) : QResult :=
  if b.toInt = 0 then { value := if a.toInt ≥ 0 then qMaxV else qMinV, sat := true, divz := true }
  else saturate (Int.tdiv (a.toInt * 65536) b.toInt)

/-- The three-way signed compare (R196). -/
def qCmp (a b : Word) : Word :=
  if a.toInt < b.toInt then 0xFFFFFFFF else if a.toInt = b.toInt then 0x00000000 else 0x00000001

/-- The smaller of two values, signed (R197). -/
def qMin (a b : Word) : Word := if a.toInt ≤ b.toInt then a else b

/-- The larger of two values, signed (R198). -/
def qMax (a b : Word) : Word := if a.toInt ≥ b.toInt then a else b

/-- `clamp01(v)` (R200). -/
def clamp01 (v : Word) : Word := qMin (qMax v qZero) qOne

end Sys2Proof.Machine
end

