-- ==== Sys2Proof/Machine/Corrector.lean ====
section
/-! DEFINITION. The Color Corrector (43_color_corrector.md): CALW, CALR, and CORRECT by its steps R213 to R218. -/

namespace Sys2Proof.Machine

/-- CALW (R210). -/
def execCalw (index : BitVec 4) (value : Word) (s : State) : Host.Outcome State Fault Refusal :=
  if calIndex index > 11 then .next (s.respond .indexOutOfRange 0 0)
  else .next ((s.writeCal (calIndex index) value).respond .ok 0 0)

/-- CALR (R211). -/
def execCalr (index : BitVec 4) (s : State) : Host.Outcome State Fault Refusal :=
  if calIndex index > 11 then .next (s.respond .indexOutOfRange 0 0)
  else if s.calValid (calIndex index) then .next (s.respond .ok (s.readCal (calIndex index)) 0)
  else .next (s.respond .noConfiguration 0 0)

/-- A value computed on the way, with the OR of the SAT flags so far (R200, R212). -/
structure Sat where
  value : Word
  sat   : Bool
  deriving DecidableEq, Repr

/-- `QADD(QADD(QMUL(a0, b0), QMUL(a1, b1)), c)` with its SAT flags: the sum both R214 and R215 take, left to right. -/
def sumOfProducts (a0 b0 a1 b1 : Word) (c : Word) (csat : Bool) : Sat :=
  let p0 := qMul a0 b0
  let p1 := qMul a1 b1
  let s0 := qAdd p0.value p1.value
  let s1 := qAdd s0.value c
  { value := s1.value, sat := p0.sat || p1.sat || s0.sat || csat || s1.sat }

/-- Step 2, one lane `u_i` (R214): the third matrix element is added as it is. -/
def unscaledRatio (m0 m1 m2 xq yq : Word) : Sat := sumOfProducts m0 xq m1 yq m2 false

/-- Step 4, the achievable luminosity `totalY` (R215). -/
def achievableY (q0 q1 q2 p0 p1 p2 : Word) : Sat :=
  let r := qMul q2 p2
  sumOfProducts q0 p0 q1 p1 r.value r.sat

/-- Step 5, one turn of the loop for `maxs` (R217): a zero ratio is skipped. -/
def limitScale (m : Sat) (q : Word) : Sat :=
  if q = qZero then m
  else
    let r := qDiv qOne q
    { value := qMin m.value r.value, sat := m.sat || r.sat }

/-- Step 5, `maxs` (R217). -/
def maxScale (q0 q1 q2 : Word) : Sat :=
  limitScale (limitScale (limitScale { value := qMaxV, sat := false } q0) q1) q2

/-- Step 6, `f_i` (R218). -/
def drive (q eff : Word) : Sat :=
  let r := qMul q eff
  { value := clamp01 r.value, sat := r.sat }

/-- Step 6, `out_i`: the integer product by OUTMAX shifted right by 16 (R218). -/
def outputOf (outmax : Half) (f : Word) : Half := BitVec.ofNat 16 (f.toNat * outmax.toNat / 65536)

/-- What CORRECT answers: the three drive values and the flags. -/
structure Colour where
  r     : Half
  g     : Half
  b     : Half
  sat   : Bool
  degen : Bool
  deriving DecidableEq, Repr

/-- The transform `correct(calibration, x, y, Y)` (R212): steps 1 to 6. `m i` is `CAL[i]`. -/
def correctColour (outmax : Half) (m : Nat → Word) (x y lum : Half) : Colour :=
  let xq := toQ x
  let yq := toQ y
  let u0 := unscaledRatio (m 0) (m 1) (m 2) xq yq
  let u1 := unscaledRatio (m 3) (m 4) (m 5) xq yq
  let u2 := unscaledRatio (m 6) (m 7) (m 8) xq yq
  let q0 := clamp01 u0.value
  let q1 := clamp01 u1.value
  let q2 := clamp01 u2.value
  let total := achievableY q0 q1 q2 (m 9) (m 10) (m 11)
  let sat := u0.sat || u1.sat || u2.sat || total.sat
  if total.value.toInt ≤ 0 then { r := 0, g := 0, b := 0, sat := sat, degen := true }
  else
    let req := qDiv (toQ lum) total.value
    let maxs := maxScale q0 q1 q2
    let eff := qMin req.value maxs.value
    let f0 := drive q0 eff
    let f1 := drive q1 eff
    let f2 := drive q2 eff
    { r := outputOf outmax f0.value
      g := outputOf outmax f1.value
      b := outputOf outmax f2.value
      sat := sat || req.sat || maxs.sat || f0.sat || f1.sat || f2.sat
      degen := false }

/-- CORRECT (R212, R219): NoConfiguration unless all twelve registers have been written; no state changes. -/
def execCorrect (x y lum : Half) (s : State) : Host.Outcome State Fault Refusal :=
  if s.calv ≠ 0xFFF then .next (s.respond .noConfiguration 0 0)
  else
    let c := correctColour s.cfg.outmax s.readCal x y lum
    .next (s.respond .ok (c.r ++ c.g) (c.b.setWidth 32) (flagsByte c.sat false c.degen))

end Sys2Proof.Machine
end

