-- ==== Sys2Proof/Machine/FixedPoint.lean ====
section
/-! DEFINITION. The Q16.16 commands (42_fixedpoint.md R192 to R198): each answers its primitive's result, status OK, and
changes no state. -/

namespace Sys2Proof.Machine

/-- Answering a Q16.16 result with its flags (R108, R110, R111). -/
def answerQ (r : QResult) (s : State) : Host.Outcome State Fault Refusal :=
  .next (s.respond .ok r.value 0 (flagsByte r.sat r.divz false))

/-- QADD (R192). -/
def execQadd (a b : Word) (s : State) : Host.Outcome State Fault Refusal := answerQ (qAdd a b) s

/-- QSUB (R193). -/
def execQsub (a b : Word) (s : State) : Host.Outcome State Fault Refusal := answerQ (qSub a b) s

/-- QMUL (R194). -/
def execQmul (a b : Word) (s : State) : Host.Outcome State Fault Refusal := answerQ (qMul a b) s

/-- QDIV (R195). -/
def execQdiv (a b : Word) (s : State) : Host.Outcome State Fault Refusal := answerQ (qDiv a b) s

/-- QCMP (R196). -/
def execQcmp (a b : Word) (s : State) : Host.Outcome State Fault Refusal := .next (s.respond .ok (qCmp a b) 0)

/-- QMIN (R197). -/
def execQmin (a b : Word) (s : State) : Host.Outcome State Fault Refusal := .next (s.respond .ok (qMin a b) 0)

/-- QMAX (R198). -/
def execQmax (a b : Word) (s : State) : Host.Outcome State Fault Refusal := .next (s.respond .ok (qMax a b) 0)

end Sys2Proof.Machine
end

