-- ==== Sys2Proof/Machine/Receive.lean ====
section
/-! DEFINITION. The receive operations of the Frame Receiver (40_rx_decoder.md R130 to R137), each inside the frame of
R139. -/

namespace Sys2Proof.Machine

/-- RXERR (R130): always one failure event; flags and data are not looked at. -/
def execRxerr (flags : BitVec 4) (_data : Byte) (s : State) : Host.Outcome State Fault Refusal :=
  onRx (raiseFailure (.hwError flags)) s

/-- RXSTART (R131): `st <- GOT_START; esc <- 0; pos <- 0`. -/
def execRxstart (s : State) : Host.Outcome State Fault Refusal :=
  onRx (fun t => noFailure (.ok { t with st := .gotStart, esc := false, pos := 0 })) s

/-- RXSKIP (R132): nothing. -/
def execRxskip (_data : Byte) (s : State) : Host.Outcome State Fault Refusal :=
  onRx (fun t => noFailure (.ok t)) s

/-- RXESC (R133): `esc <- 1`. -/
def execRxesc (s : State) : Host.Outcome State Fault Refusal :=
  onRx (fun t => noFailure (.ok { t with esc := true })) s

/-- RXESC0 (R134): `esc <- 0; content(ESC_LIT0)`. -/
def execRxesc0 (s : State) : Host.Outcome State Fault Refusal :=
  onRx (fun t => noFailure (State.content { t with esc := false } t.cfg.wire.escLit0)) s

/-- RXESC1 (R136): `esc <- 0; content(ESC_LIT1)`. -/
def execRxesc1 (s : State) : Host.Outcome State Fault Refusal :=
  onRx (fun t => noFailure (State.content { t with esc := false } t.cfg.wire.escLit1)) s

/-- RXESCBAD (R135): a malformed escape is one failure event; the byte is dropped. -/
def execRxescbad (_data : Byte) (s : State) : Host.Outcome State Fault Refusal :=
  onRx (raiseFailure .malformedEscape) s

/-- RXLIT (R137): `content(X[7:0])`. -/
def execRxlit (data : Byte) (s : State) : Host.Outcome State Fault Refusal :=
  onRx (fun t => noFailure (t.content data)) s

end Sys2Proof.Machine
end

