-- ==== Sys2Proof/Machine/Dispatch.lean ====
section
/-! DEFINITION. One arm per operation of the opcode table. -/

namespace Sys2Proof.Machine

def exec (i : Instr) (s : State) : Host.Outcome State Fault Refusal :=
  match i with
  -- receive operations (40_rx_decoder.md)
  | .rxerr flags data => Sys2Proof.Machine.execRxerr flags data s
  | .rxstart => Sys2Proof.Machine.execRxstart s
  | .rxskip data => Sys2Proof.Machine.execRxskip data s
  | .rxesc0 => Sys2Proof.Machine.execRxesc0 s
  | .rxesc1 => Sys2Proof.Machine.execRxesc1 s
  | .rxescbad data => Sys2Proof.Machine.execRxescbad data s
  | .rxesc => Sys2Proof.Machine.execRxesc s
  | .rxlit data => Sys2Proof.Machine.execRxlit data s
  -- consumer commands (41_consumer.md)
  | .nop => Sys2Proof.Machine.execNop s
  | .poll => Sys2Proof.Machine.execPoll s
  | .rdbyte offset => Sys2Proof.Machine.execRdbyte offset s
  | .release => Sys2Proof.Machine.execRelease s
  | .setaddr addr => Sys2Proof.Machine.execSetaddr addr s
  -- Color Corrector (43_color_corrector.md)
  | .calw index value => Sys2Proof.Machine.execCalw index value s
  | .calr index => Sys2Proof.Machine.execCalr index s
  | .correct x y lum => Sys2Proof.Machine.execCorrect x y lum s
  -- fixed point (42_fixedpoint.md)
  | .qadd a b => Sys2Proof.Machine.execQadd a b s
  | .qsub a b => Sys2Proof.Machine.execQsub a b s
  | .qmul a b => Sys2Proof.Machine.execQmul a b s
  | .qdiv a b => Sys2Proof.Machine.execQdiv a b s
  | .qcmp a b => Sys2Proof.Machine.execQcmp a b s
  | .qmin a b => Sys2Proof.Machine.execQmin a b s
  | .qmax a b => Sys2Proof.Machine.execQmax a b s

end Sys2Proof.Machine
end

