-- ==== Sys2Proof/Machine/Trace.lean ====
section
/-! DEFINITION. The pseudo-operations of the trace notation (30_encoding.md R116 to R118) as input sequences. -/

namespace Sys2Proof.Machine

/-- `rx DD` (R116). -/
def rxByte (d : Byte) : Input := .rx (xByte d)

/-- `stuff(B)` (R118): the sender's byte stuffing of one content byte. -/
def stuff (w : Wire) (b : Byte) : List Input :=
  if b = w.escapeMark then [rxByte w.escapeMark, rxByte w.escCode0]
  else if b = w.startMark then [rxByte w.escapeMark, rxByte w.escCode1]
  else [rxByte b]

/-- `frame B0 B1 ... Bn` (R117). -/
def frame (w : Wire) (bytes : List Byte) : List Input := rxByte w.startMark :: bytes.flatMap (stuff w)

/-- `strobe` (R117). -/
def strobe (w : Wire) : List Input := frame w [w.addrStrobe]

/-- `calload V0 V1 ... V11` (R117): CALW of each value, in index order. -/
def calload (w : Wire) (values : List Word) : List Input :=
  values.zipIdx.map fun (v, i) => encode w (.calw (BitVec.ofNat 4 i) v)

/-- `calident` (R117): the identity matrix, peak luminosity 1.0 each. -/
def calident (w : Wire) : List Input :=
  calload w [0x00010000, 0, 0, 0, 0x00010000, 0, 0, 0, 0x00010000, 0x00010000, 0x00010000, 0x00010000]

end Sys2Proof.Machine
end

