-- ==== Sys2Proof/Machine/Step.lean ====
section
/-! DEFINITION. One step: one input, processed whole (00_scope.md R12, 20_memory.md R70). -/

namespace Sys2Proof.Machine

/-- One atomic step: the next input is decoded in the decoder state at hand and its operation executed. -/
def step (s : State) : Host.Outcome State Fault Refusal :=
  match s.takeInput with
  | none              => idleStep s
  | some (input, s1) =>
    match decodeInput s1.cfg.wire s1.rxContext input with
    | .op i         => exec i s1
    | .resetInput   => resetInput s1
    | .rejected why => onReject why s1

/-- The state in which the next step runs the opcode-table word `w` of `nbits` bits: the word is the next input (log 5),
and the decoder is in a state in which it reads so (log 14). -/
def State.withFetchWord (s : State) (nbits w : Nat) : State := s.deliverTableWord nbits w

end Sys2Proof.Machine
end

