-- ==== Sys2Proof/Safety.lean ====
section
/-! DEFINITION. The invariants of a block (10_state.md R40 and the ranges of R7, R20), and what the delivery claims take
as premise: the block is not fatal (60_exceptions.md R244). -/

namespace Sys2Proof.Machine

/-- The index of the j-th pending buffer, oldest first (R28). -/
def State.pendingBuffer (s : State) (j : Nat) : Nat := (s.rd + j) % s.cfg.nbuf

/-- `flen[k]` as a reader of the state sees it. -/
def State.lenAt (s : State) (k : Nat) : Byte := s.flen.getD k 0

/-- Buffer k is pending (R28). -/
def State.isPending (s : State) (k : Nat) : Prop := ∃ j, j < s.pending ∧ k = s.pendingBuffer j

/-- The cell keys of `BUF` (R60): every listed entry is a cell that exists. -/
def State.bufInRange (s : State) : Prop :=
  ∀ c ∈ s.buf, ∃ k o, c.1 = cellKey k o ∧ cellExists s.cfg k o = true

/-- The invariants that every step keeps: R40 (a) to (h), and the shapes and ranges of R7 and R20 they stand on. -/
structure State.Inv (s : State) : Prop where
  /-- `flen` has NBUF entries (R20). -/
  flenLength : s.flen.length = s.cfg.nbuf
  /-- `fwin` has FAIL_WINDOW bits (R20, R33). -/
  fwinLength : s.fwin.length = s.cfg.failWindow
  /-- The memory is in its canonical form. -/
  bufWf : s.buf.wf
  /-- The memory lists cells that exist only (R60). -/
  bufCells : s.bufInRange
  /-- `rd` holds 0..NBUF-1 (R7). -/
  rdRange : s.rd < s.cfg.nbuf
  /-- R40 (a). -/
  pendingLe : s.pending ≤ s.cfg.nbuf
  /-- R40 (b). -/
  wrEq : s.wr = (s.rd + s.pending) % s.cfg.nbuf
  /-- R40 (c). -/
  notCorrupt : s.st ≠ .corrupt
  /-- R40 (d). -/
  idleEsc : s.st = .idle → s.esc = false
  /-- R40 (e). -/
  gotStartPos : s.st = .gotStart → s.pos = 0
  /-- R40 (f). -/
  readingPos : s.st = .reading → 1 ≤ s.pos.toNat ∧ s.pos.toNat < s.explen.toNat ∧ s.explen.toNat ≤ s.cfg.buflen
  /-- R40 (g). -/
  readingSten : s.st = .reading → s.sten = true → s.pending < s.cfg.nbuf
  /-- R40 (h). -/
  pendingLen : ∀ j, j < s.pending →
    1 ≤ (s.lenAt (s.pendingBuffer j)).toNat ∧ (s.lenAt (s.pendingBuffer j)).toNat ≤ s.cfg.buflen
  /-- While not fatal the window holds no more than FAIL_THRESHOLD failures (R241). -/
  withinThreshold : s.fatal = false → popcount s.fwin ≤ s.cfg.failThreshold

end Sys2Proof.Machine
end

