-- ==== Sys2Proof/Certificates/Slice0/Obligations.lean ====
section
/-! DEFINITION. The statements for the provers, from the numbered rules of spec/. The helper definitions under
`Sys2Proof.Claims` say in the rules' own terms what a statement needs; they use no operation of the model but its
readers of the state (`cell`, `lenAt`, `Memory.read`, `readCal`, `calValid`, `lenOf`). -/

namespace Sys2Proof.Claims

open Sys2Proof.Machine

/-- What a step or a meaning answers. -/
abbrev Answer := Host.Outcome State Fault Refusal

/-- The response word by its four fields, status in the top byte (R108). -/
def rWord (status flags : Byte) (r0 r1 : Word) : RWord :=
  BitVec.ofNat 80 (status.toNat * 2 ^ 72 + flags.toNat * 2 ^ 64 + r0.toNat * 2 ^ 32 + r1.toNat)

/-- The state after one response and nothing else. -/
def answered (s : State) (status flags : Byte) (r0 r1 : Word) : State :=
  { s with responses := s.responses ++ [rWord status flags r0 r1] }

/-- The end of a receive event with failure bit `f` in a state that is not fatal (R240, R241). -/
def eventEnd (f : Bool) (s : State) : State :=
  { s with
    fwin  := (f :: s.fwin).take s.cfg.failWindow
    fatal := decide (s.cfg.failThreshold < ((f :: s.fwin).take s.cfg.failWindow).count true) }

/-- The command word's fields as numbers (R100): `op`, `a`, `b`. -/
def opNat (c : CWord) : Nat := c.toNat / 2 ^ 64
def aNat (c : CWord) : Nat := c.toNat / 2 ^ 32 % 2 ^ 32
def bNat (c : CWord) : Nat := c.toNat % 2 ^ 32

/-- The next input is the receive-event word `x`, and the block processes it (R139). -/
def Receiving (s : State) (x : XWord) (rest : List Input) : Prop :=
  s.inputs = .rx x :: rest ∧ s.fatal = false ∧ s.st ≠ .corrupt

/-- `X[11:8] = 0` (R92). -/
def errorFree (x : XWord) : Prop := x.toNat / 256 = 0

/-- The command with code `op` is encoded so (R100, R101, R106): every word with that code, whatever its other bits. -/
def EncodedAs (op : Nat) (f : CWord → Instr) : Prop := ∀ c, opNat c = op → decodeCmd c = .op (f c)

/-- The operation codes of R101. -/
def opcodes : List Nat :=
  [0x00, 0x01, 0x02, 0x03, 0x04, 0x10, 0x11, 0x12, 0x20, 0x21, 0x22, 0x23, 0x24, 0x25, 0x26]

/-- In state `s` the operation `i` hands the content byte `c` to the frame in progress: RXLIT (selected with `esc = 0`
only), RXESC0, RXESC1 (R134, R136, R137). -/
def IsContent (s : State) (i : Instr) (c : Byte) : Prop :=
  (i = .rxlit c ∧ s.esc = false) ∨ (i = .rxesc0 ∧ c = s.cfg.wire.escLit0) ∨ (i = .rxesc1 ∧ c = s.cfg.wire.escLit1)

/-- What no content byte changes: everything the consumer side owns, and the configuration; and f = 0 for the window. -/
def ContentFrame (s t : State) : Prop :=
  t.cfg = s.cfg ∧ t.rd = s.rd ∧ t.myaddr = s.myaddr ∧ t.cal = s.cal ∧ t.calv = s.calv ∧
  t.inputs = s.inputs ∧ t.responses = s.responses ∧ t.esc = false ∧
  t.fwin = (eventEnd false s).fwin ∧ t.fatal = (eventEnd false s).fatal

/-- Exactly the cell (wr, o) of `BUF` takes the byte `c`; every other byte reads as before (R64). -/
def StoredAt (s t : State) (o : Nat) (c : Byte) : Prop :=
  t.buf.read (cellKey s.wr o) = c ∧ ∀ a, a ≠ cellKey s.wr o → t.buf.read a = s.buf.read a

/-- The ring registers and the overflow flag are as before. -/
def RingSame (s t : State) : Prop :=
  t.wr = s.wr ∧ t.pending = s.pending ∧ t.flen = s.flen ∧ t.ovf = s.ovf

/-- `complete()` for a frame of length `len` (R143), `sten` being its store enable. -/
def Completed (s t : State) (sten : Bool) (len : Byte) : Prop :=
  t.st = .idle ∧
  (sten = true → t.flen = s.flen.set s.wr len ∧ t.wr = (s.wr + 1) % s.cfg.nbuf ∧ t.pending = s.pending + 1 ∧
    t.ovf = s.ovf) ∧
  (sten = false → t.flen = s.flen ∧ t.wr = s.wr ∧ t.pending = s.pending ∧ t.ovf = true)

/-- The failure bit of a receive event, by its word and the decoder state (R147): an error flag, or a byte that is no
START_MARK and no escape code after an ESCAPE_MARK inside a frame. -/
def isFailure (w : Wire) (st : DecSt) (esc : Bool) (x : XWord) : Bool :=
  decide (xFlags x ≠ 0) ||
    (decide (xData x ≠ w.startMark) && decide (st ≠ .idle) && esc && decide (xData x ≠ w.escCode0) &&
      decide (xData x ≠ w.escCode1))

/-- The bytes of the j-th pending frame, oldest first. -/
def frameAt (s : State) (j : Nat) : List Byte :=
  (List.range (s.lenAt (s.pendingBuffer j)).toNat).map fun o => s.cell (s.pendingBuffer j) o

/-- The frames a consumer can still take, oldest first (R28). -/
def frames (s : State) : List (List Byte) := (List.range s.pending).map (frameAt s)

/-- Delivering the inputs `l` and running them all. -/
def runInputs (s : State) (l : List Input) : Answer :=
  Host.Core.run Sys2Proof.core l.length ({ s with inputs := l } : State)

/-- What receiving a frame to its end leaves alone, whatever becomes of the frame. -/
def QuietFrame (s t : State) : Prop :=
  t.st = .idle ∧ t.esc = false ∧ t.fatal = false ∧ t.rd = s.rd ∧ t.myaddr = s.myaddr ∧ t.cal = s.cal ∧
  t.calv = s.calv ∧ t.cfg = s.cfg ∧ t.responses = s.responses ∧ t.inputs = []

/-- Saturation on integers (R9, R191). -/
def clip (z : Int) : Int := max (-2147483648) (min z 2147483647)

/-- Whether `clip` changes its argument: the SAT flag (R191). -/
def clips (z : Int) : Bool := decide (clip z ≠ z)

/-- The flags byte (R110). -/
def flagBits (sat divz degen : Bool) : Byte :=
  BitVec.ofNat 8 (sat.toNat + 2 * divz.toNat + 4 * degen.toNat)

/-- CORRECT in exact integers, units of 1/65536 (R213 to R218): results, SAT, DEGEN. `m i` is `s(CAL[i])`. -/
structure IntColour where
  r     : Int
  g     : Int
  b     : Int
  sat   : Bool
  degen : Bool

/-- The exact product, floored (R194). -/
def mulZ (a b : Int) : Int := (a * b) / 65536

/-- The exact quotient, rounded toward zero, of operands in units of 1/65536 (R195). -/
def divZ (a b : Int) : Int := Int.tdiv (a * 65536) b

/-- `clamp01` (R200). -/
def clampZ (v : Int) : Int := max 0 (min v 65536)

/-- `QADD(QADD(p0, p1), p2)` of three exact products or terms: the value and whether anything was clipped on the way. -/
def sumZ (p0 p1 p2 : Int) : Int × Bool :=
  let s0 := clip p0 + clip p1
  let s1 := clip s0 + clip p2
  (clip s1, clips p0 || clips p1 || clips s0 || clips p2 || clips s1)

/-- The largest scale (R217): the smallest reciprocal of the nonzero ratios, from the largest value on. -/
def maxScaleZ (qs : List Int) : Int :=
  (qs.filter (· ≠ 0)).foldl (fun m q => min m (clip (divZ 65536 q))) 2147483647

/-- Step 6 on one channel (R218). -/
def outZ (outmax q eff : Int) : Int := clampZ (clip (mulZ q eff)) * outmax / 65536

/-- Steps 1 to 6 (R213 to R218). -/
def correctZ (outmax : Int) (m : Nat → Int) (x y lum : Int) : IntColour :=
  let u0 := sumZ (mulZ (m 0) x) (mulZ (m 1) y) (m 2)
  let u1 := sumZ (mulZ (m 3) x) (mulZ (m 4) y) (m 5)
  let u2 := sumZ (mulZ (m 6) x) (mulZ (m 7) y) (m 8)
  let q0 := clampZ u0.1
  let q1 := clampZ u1.1
  let q2 := clampZ u2.1
  let total := sumZ (mulZ q0 (m 9)) (mulZ q1 (m 10)) (mulZ q2 (m 11))
  let sat := u0.2 || u1.2 || u2.2 || total.2
  if total.1 ≤ 0 then { r := 0, g := 0, b := 0, sat := sat, degen := true }
  else
    let req := divZ lum total.1
    let eff := min (clip req) (maxScaleZ [q0, q1, q2])
    { r := outZ outmax q0 eff
      g := outZ outmax q1 eff
      b := outZ outmax q2 eff
      sat := sat || clips req || [q0, q1, q2].any (fun q => decide (q ≠ 0) && clips (divZ 65536 q)) ||
        clips (mulZ q0 eff) || clips (mulZ q1 eff) || clips (mulZ q2 eff)
      degen := false }

/-- All twelve calibration registers have been written since reset (R37). -/
def Calibrated (s : State) : Prop := ∀ i, i < 12 → s.calValid i = true

end Sys2Proof.Claims

open Sys2Proof Sys2Proof.Machine Sys2Proof.Claims

/-! ### Encoding and decoding -/

/-- R92, R96, R101, with words written out from the encodings (95_test_vectors.md 2.1, 2.5 to 2.7). -/
def Obligations.SampleWordsDecode : Prop :=
  decodeRx Wire.vl { fatal := false, st := .idle, esc := false } 0x055 = .op .rxstart ∧
  decodeRx Wire.vl { fatal := false, st := .reading, esc := false } 0x855 = .op (.rxerr 8 0x55) ∧
  decodeRx Wire.vl { fatal := false, st := .idle, esc := false } 0x054 = .op (.rxskip 0x54) ∧
  decodeRx Wire.vl { fatal := false, st := .reading, esc := true } 0x001 = .op .rxesc1 ∧
  decodeRx Wire.vl { fatal := false, st := .gotStart, esc := false } 0x010 = .op (.rxlit 0x10) ∧
  decodeCmd 0x02DEADBEEFFFFFFF03 = .op (.rdbyte 3) ∧
  decodeCmd 0x10FFFFFFF312345678 = .op (.calw 3 0x12345678) ∧
  decodeCmd 0x122000800000002000 = .op (.correct 0x2000 0x8000 0x2000) ∧
  decodeCmd 0x200001800000008000 = .op (.qadd 0x00018000 0x00008000)

/-- R96: the first line of the list that applies selects the operation. -/
def Obligations.ReceiveWordSelectsFirstApplicableLine : Prop :=
  ∀ (w : Wire) (c : RxContext) (x : XWord),
    let d := xData x
    (c.fatal = true → decodeRx w c x = .rejected .fatalIgnored) ∧
    (c.fatal = false → c.st = .corrupt → decodeRx w c x = .rejected .corruptState) ∧
    (c.fatal = false → c.st ≠ .corrupt → x.toNat / 256 ≠ 0 → decodeRx w c x = .op (.rxerr (xFlags x) d)) ∧
    (c.fatal = false → c.st ≠ .corrupt → x.toNat / 256 = 0 →
      (d = w.startMark → decodeRx w c x = .op .rxstart) ∧
      (d ≠ w.startMark → c.st = .idle → decodeRx w c x = .op (.rxskip d)) ∧
      (d ≠ w.startMark → c.st ≠ .idle → c.esc = true →
        (d = w.escCode0 → decodeRx w c x = .op .rxesc0) ∧
        (d ≠ w.escCode0 → d = w.escCode1 → decodeRx w c x = .op .rxesc1) ∧
        (d ≠ w.escCode0 → d ≠ w.escCode1 → decodeRx w c x = .op (.rxescbad d))) ∧
      (d ≠ w.startMark → c.st ≠ .idle → c.esc = false →
        (d = w.escapeMark → decodeRx w c x = .op .rxesc) ∧
        (d ≠ w.escapeMark → decodeRx w c x = .op (.rxlit d))))

/-- R100, R101, R106: `op` selects the command, its operands are the fields R101 names, all other bits are ignored. -/
def Obligations.CommandWordDecodesByOpcodeMap : Prop :=
  ∀ c : CWord,
    (opNat c = 0x00 → decodeCmd c = .op .nop) ∧
    (opNat c = 0x01 → decodeCmd c = .op .poll) ∧
    (opNat c = 0x02 → decodeCmd c = .op (.rdbyte (BitVec.ofNat 8 (bNat c)))) ∧
    (opNat c = 0x03 → decodeCmd c = .op .release) ∧
    (opNat c = 0x04 → decodeCmd c = .op (.setaddr (BitVec.ofNat 8 (bNat c)))) ∧
    (opNat c = 0x10 → decodeCmd c = .op (.calw (BitVec.ofNat 4 (aNat c)) (BitVec.ofNat 32 (bNat c)))) ∧
    (opNat c = 0x11 → decodeCmd c = .op (.calr (BitVec.ofNat 4 (aNat c)))) ∧
    (opNat c = 0x12 → decodeCmd c =
      .op (.correct (BitVec.ofNat 16 (aNat c / 65536)) (BitVec.ofNat 16 (aNat c)) (BitVec.ofNat 16 (bNat c)))) ∧
    (opNat c = 0x20 → decodeCmd c = .op (.qadd (BitVec.ofNat 32 (aNat c)) (BitVec.ofNat 32 (bNat c)))) ∧
    (opNat c = 0x21 → decodeCmd c = .op (.qsub (BitVec.ofNat 32 (aNat c)) (BitVec.ofNat 32 (bNat c)))) ∧
    (opNat c = 0x22 → decodeCmd c = .op (.qmul (BitVec.ofNat 32 (aNat c)) (BitVec.ofNat 32 (bNat c)))) ∧
    (opNat c = 0x23 → decodeCmd c = .op (.qdiv (BitVec.ofNat 32 (aNat c)) (BitVec.ofNat 32 (bNat c)))) ∧
    (opNat c = 0x24 → decodeCmd c = .op (.qcmp (BitVec.ofNat 32 (aNat c)) (BitVec.ofNat 32 (bNat c)))) ∧
    (opNat c = 0x25 → decodeCmd c = .op (.qmin (BitVec.ofNat 32 (aNat c)) (BitVec.ofNat 32 (bNat c)))) ∧
    (opNat c = 0x26 → decodeCmd c = .op (.qmax (BitVec.ofNat 32 (aNat c)) (BitVec.ofNat 32 (bNat c)))) ∧
    (opNat c ∉ opcodes → decodeCmd c = .rejected (.reservedOp (BitVec.ofNat 8 (opNat c))))

/-- Decoding an encoded operation gives it back: every operation, every operand value, every legal choice of the wire
constants, in every decoder state that selects the operation. -/
def Obligations.EncodeThenDecodeIsIdentity : Prop :=
  ∀ (w : Wire) (c : RxContext) (i : Instr), w.legal = true → i.wf w = true → i.selectableIn c = true →
    decodeInput w c (encode w i) = .op i

/-- The other direction: what is decoded is a well-formed operation of the input's own kind, selectable in that state. -/
def Obligations.DecodedOperationIsWellFormed : Prop :=
  ∀ (w : Wire) (c : RxContext) (i : Instr),
    (∀ x : XWord, decodeInput w c (.rx x) = .op i → i.wf w = true ∧ i.selectableIn c = true ∧ i.isReceive = true) ∧
    (∀ k : CWord, decodeInput w c (.cmd k) = .op i → i.wf w = true ∧ i.isReceive = false)

/-- A step takes the next input and executes the operation it decodes to in the decoder state at hand. -/
def Obligations.StepRunsDecodedOperation : Prop :=
  ∀ (s : State) (input : Input) (rest : List Input) (i : Instr),
    s.inputs = input :: rest →
    decodeInput s.cfg.wire { fatal := s.fatal, st := s.st, esc := s.esc } input = .op i →
    step s = exec i { s with inputs := rest }

/-- R112: a reserved `op` changes no state and answers WrongCommand, whatever its operand bits; no operand bits make a
legal `op` illegal. -/
def Obligations.ReservedOpAnswersWrongCommand : Prop :=
  (∀ (s : State) (c : CWord) (rest : List Input),
    s.inputs = .cmd c :: rest → opNat c ∉ opcodes →
    step s = .next (answered { s with inputs := rest } 0x02 0 0 0)) ∧
  (∀ c : CWord, opNat c ∈ opcodes → ∃ i, decodeCmd c = .op i ∧ i.isReceive = false)

/-! ### Receive operations -/

/-- R130, R135, R236: both failing operations abort the frame, count one failure, and change nothing else: the operations,
and the words that select them. -/
def Obligations.FailureEventAbortsFrame : Prop :=
  (∀ (s : State) (flags : BitVec 4) (data : Byte), s.fatal = false → s.st ≠ .corrupt →
    exec (.rxerr flags data) s = .next (eventEnd true { s with st := .idle, esc := false }) ∧
    exec (.rxescbad data) s = .next (eventEnd true { s with st := .idle, esc := false })) ∧
  (∀ (s : State) (x : XWord) (rest : List Input), Receiving s x rest →
    ¬ errorFree x ∨ (errorFree x ∧ s.st ≠ .idle ∧ s.esc = true ∧ xData x ≠ s.cfg.wire.escCode0 ∧
      xData x ≠ s.cfg.wire.escCode1 ∧ xData x ≠ s.cfg.wire.startMark) →
    step s = .next (eventEnd true { s with inputs := rest, st := .idle, esc := false }))

/-- R131: an error-free START_MARK restarts the decoder from every state, without a failure; nothing else changes. -/
def Obligations.StartMarkRestartsDecoder : Prop :=
  (∀ s : State, s.fatal = false → s.st ≠ .corrupt →
    exec .rxstart s = .next (eventEnd false { s with st := .gotStart, esc := false, pos := 0 })) ∧
  (∀ (s : State) (x : XWord) (rest : List Input), Receiving s x rest → errorFree x → xData x = s.cfg.wire.startMark →
    step s = .next (eventEnd false { s with inputs := rest, st := .gotStart, esc := false, pos := 0 }))

/-- R132: any other error-free byte in IDLE changes nothing but the window, which counts it as a clean event. -/
def Obligations.SkippedByteOnlyAgesWindow : Prop :=
  (∀ (s : State) (data : Byte), s.fatal = false → s.st ≠ .corrupt → exec (.rxskip data) s = .next (eventEnd false s)) ∧
  (∀ (s : State) (x : XWord) (rest : List Input), Receiving s x rest → errorFree x →
    xData x ≠ s.cfg.wire.startMark → s.st = .idle → step s = .next (eventEnd false { s with inputs := rest }))

/-- R133: an unescaped ESCAPE_MARK inside a frame sets `esc`; `st` and `pos` are unchanged. -/
def Obligations.EscapeMarkSetsEsc : Prop :=
  (∀ s : State, s.fatal = false → s.st ≠ .corrupt → exec .rxesc s = .next (eventEnd false { s with esc := true })) ∧
  (∀ (s : State) (x : XWord) (rest : List Input), Receiving s x rest → errorFree x →
    xData x = s.cfg.wire.escapeMark → s.st ≠ .idle → s.esc = false →
    step s = .next (eventEnd false { s with inputs := rest, esc := true }))

/-- R134, R136, R137: an escape code after an ESCAPE_MARK is one content byte, the table's literal; any other byte of a
frame that is no mark is its own content byte. (What a content byte does: `FirstContentByte`, `LaterContentByte`.) -/
def Obligations.EscapeCodesStandForLiterals : Prop :=
  ∀ (s : State) (x : XWord) (rest : List Input), Receiving s x rest → errorFree x → s.st ≠ .idle →
    (s.esc = true → xData x = s.cfg.wire.escCode0 →
      step s = exec (.rxlit s.cfg.wire.escLit0) { s with inputs := rest, esc := false }) ∧
    (s.esc = true → xData x = s.cfg.wire.escCode1 →
      step s = exec (.rxlit s.cfg.wire.escLit1) { s with inputs := rest, esc := false }) ∧
    (s.esc = false → xData x ≠ s.cfg.wire.startMark → xData x ≠ s.cfg.wire.escapeMark →
      step s = exec (.rxlit (xData x)) { s with inputs := rest })

/-- R141 with R143: the first content byte, for RXLIT, RXESC0 and RXESC1 alike. A zero length discards; otherwise the
store enable is latched, the byte stored if it is set, and a frame of length 1 completes in the same step. -/
def Obligations.FirstContentByte : Prop :=
  ∀ (s : State) (i : Instr) (c : Byte), s.Inv → s.fatal = false → s.st = .gotStart → IsContent s i c →
    ∃ t, exec i s = .next t ∧ ContentFrame s t ∧
      (lenOf s.cfg c s.myaddr = 0 →
        t.st = .idle ∧ t.pos = s.pos ∧ t.explen = s.explen ∧ t.sten = s.sten ∧ t.buf = s.buf ∧ RingSame s t) ∧
      (lenOf s.cfg c s.myaddr ≠ 0 →
        t.pos = 1 ∧ t.explen.toNat = lenOf s.cfg c s.myaddr ∧ t.sten = decide (s.pending < s.cfg.nbuf) ∧
        (s.pending < s.cfg.nbuf → StoredAt s t 0 c) ∧ (¬ s.pending < s.cfg.nbuf → t.buf = s.buf)) ∧
      (1 < lenOf s.cfg c s.myaddr → t.st = .reading ∧ RingSame s t) ∧
      (lenOf s.cfg c s.myaddr = 1 → Completed s t (decide (s.pending < s.cfg.nbuf)) 1)

/-- R142 with R143: a later content byte, for RXLIT, RXESC0 and RXESC1 alike. -/
def Obligations.LaterContentByte : Prop :=
  ∀ (s : State) (i : Instr) (c : Byte), s.Inv → s.fatal = false → s.st = .reading → IsContent s i c →
    ∃ t, exec i s = .next t ∧ ContentFrame s t ∧
      t.pos.toNat = s.pos.toNat + 1 ∧ t.explen = s.explen ∧ t.sten = s.sten ∧
      (s.sten = true → StoredAt s t s.pos.toNat c) ∧ (s.sten = false → t.buf = s.buf) ∧
      (s.pos.toNat + 1 < s.explen.toNat → t.st = .reading ∧ RingSame s t) ∧
      (s.pos.toNat + 1 = s.explen.toNat → Completed s t s.sten s.explen)

/-- R240, R241, R147: every receive event processed while not fatal shifts its failure bit into the window, and the
block goes fatal exactly when more than FAIL_THRESHOLD bits are set. -/
def Obligations.WindowCountsFailureEvents : Prop :=
  ∀ (s : State) (x : XWord) (rest : List Input), s.Inv → s.fatal = false → s.inputs = .rx x :: rest →
    ∃ t, step s = .next t ∧
      t.fwin = (isFailure s.cfg.wire s.st s.esc x :: s.fwin).take s.cfg.failWindow ∧
      (t.fatal = true ↔ s.cfg.failThreshold < t.fwin.count true)

/-- R243: a receive event that finds the corrupt decoder state sets `fatal` and does nothing else; no step puts the
decoder into that state. -/
def Obligations.CorruptStateGoesFatal : Prop :=
  (∀ (s : State) (x : XWord) (rest : List Input), s.st = .corrupt → s.fatal = false → s.inputs = .rx x :: rest →
    step s = .next { s with inputs := rest, fatal := true }) ∧
  (∀ (s : State) (i : Instr), s.st = .corrupt → s.fatal = false → i.isReceive = true →
    exec i s = .next { s with fatal := true }) ∧
  (∀ s t : State, s.st ≠ .corrupt → step s = .next t → t.st ≠ .corrupt)

/-- R244: while fatal every receive event is ignored entirely. -/
def Obligations.FatalIgnoresReceiveEvents : Prop :=
  (∀ (s : State) (x : XWord) (rest : List Input), s.fatal = true → s.inputs = .rx x :: rest →
    step s = .next { s with inputs := rest }) ∧
  (∀ (s : State) (i : Instr), s.fatal = true → i.isReceive = true → exec i s = .next s)

/-- R245: the reset input clears `fatal`, and nothing else does. -/
def Obligations.OnlyResetClearsFatal : Prop :=
  (∀ s t : State, step s = .next t → s.fatal = true → t.fatal = false → s.inputs.head? = some .reset) ∧
  (∀ s : State, s.inputs.head? = some .reset → ∃ t, step s = .next t ∧ t.fatal = false)

/-- R146: the table of (st, esc) transitions, with the failure bit: which operation can be decoded where, and what it
leads to. The outcome of `content` is IDLE when the length is 0 or the frame completes, else READING. -/
def Obligations.DecoderTransitionTable : Prop :=
  ∀ (s : State) (x : XWord) (i : Instr), s.Inv →
    decodeRx s.cfg.wire { fatal := s.fatal, st := s.st, esc := s.esc } x = .op i →
    ∃ t, exec i s = .next t ∧
      ((∃ flags data, i = .rxerr flags data) → t.st = .idle ∧ t.esc = false ∧ t.fwin = (eventEnd true s).fwin) ∧
      (i = .rxstart → t.st = .gotStart ∧ t.esc = false ∧ t.fwin = (eventEnd false s).fwin) ∧
      ((∃ data, i = .rxskip data) →
        s.st = .idle ∧ s.esc = false ∧ t.st = .idle ∧ t.esc = false ∧ t.fwin = (eventEnd false s).fwin) ∧
      (i = .rxesc → s.st ≠ .idle ∧ s.esc = false ∧ t.st = s.st ∧ t.esc = true ∧ t.fwin = (eventEnd false s).fwin) ∧
      ((∃ data, i = .rxescbad data) →
        s.st ≠ .idle ∧ s.esc = true ∧ t.st = .idle ∧ t.esc = false ∧ t.fwin = (eventEnd true s).fwin) ∧
      (i = .rxesc0 ∨ i = .rxesc1 → s.st ≠ .idle ∧ s.esc = true) ∧
      ((∃ data, i = .rxlit data) → s.st ≠ .idle ∧ s.esc = false) ∧
      (∀ c, IsContent s i c → t.esc = false ∧ t.fwin = (eventEnd false s).fwin ∧
        (s.st = .gotStart → t.st = if lenOf s.cfg c s.myaddr ≤ 1 then .idle else .reading) ∧
        (s.st = .reading → t.st = if s.pos.toNat + 1 = s.explen.toNat then .idle else .reading))

/-- R43: what no receive event touches, in any state: the consumer's state, the calibration, the configuration; `ovf`
is only set; no response is returned. -/
def Obligations.ReceiveEventsLeaveConsumerState : Prop :=
  ∀ (s t : State) (x : XWord) (rest : List Input), s.inputs = .rx x :: rest → step s = .next t →
    t.inputs = rest ∧ t.cfg = s.cfg ∧ t.rd = s.rd ∧ t.myaddr = s.myaddr ∧ t.cal = s.cal ∧ t.calv = s.calv ∧
    t.responses = s.responses ∧ (s.ovf = true → t.ovf = true)

/-- R71: the RX agent writes only buffer `wr`, and only while it is not pending: every pending buffer, its length and
all its bytes, is as before. -/
def Obligations.PendingFramesUntouchedByReceiveEvents : Prop :=
  ∀ (s t : State) (x : XWord) (rest : List Input), s.Inv → s.inputs = .rx x :: rest → step s = .next t →
    (∀ a, t.buf.read a ≠ s.buf.read a → ∃ o, o < s.cfg.buflen ∧ a = cellKey s.wr o) ∧
    ∀ j, j < s.pending →
      t.pendingBuffer j = s.pendingBuffer j ∧ t.lenAt (s.pendingBuffer j) = s.lenAt (s.pendingBuffer j) ∧
      ∀ o, o < s.cfg.buflen → t.cell (s.pendingBuffer j) o = s.cell (s.pendingBuffer j) o

/-- R118: a frame whose length agrees with `LEN`, stuffed and sent whole, ends as one more pending frame holding exactly
its content bytes, from any state that is not fatal and has a free buffer, in the middle of another frame too. -/
def Obligations.AcceptedFrameIsStoredWhole : Prop :=
  ∀ (s : State) (p : List Byte) (c : Byte) (cs : List Byte), s.Inv → s.fatal = false → s.pending < s.cfg.nbuf →
    s.cfg.wire.escLit0 = s.cfg.wire.escapeMark → s.cfg.wire.escLit1 = s.cfg.wire.startMark →
    p = c :: cs → lenOf s.cfg c s.myaddr = p.length →
    ∃ t, runInputs s (frame s.cfg.wire p) = .next t ∧ QuietFrame s t ∧ t.Inv ∧
      t.pending = s.pending + 1 ∧ t.wr = (s.wr + 1) % s.cfg.nbuf ∧ t.ovf = s.ovf ∧ frames t = frames s ++ [p]

/-- R145: a complete frame that finds the ring full is dropped with the overflow flag set, and drops no accepted frame's
data. -/
def Obligations.FrameOnFullRingIsDropped : Prop :=
  ∀ (s : State) (p : List Byte) (c : Byte) (cs : List Byte), s.Inv → s.fatal = false → s.pending = s.cfg.nbuf →
    s.cfg.wire.escLit0 = s.cfg.wire.escapeMark → s.cfg.wire.escLit1 = s.cfg.wire.startMark →
    p = c :: cs → lenOf s.cfg c s.myaddr = p.length →
    ∃ t, runInputs s (frame s.cfg.wire p) = .next t ∧ QuietFrame s t ∧ t.ovf = true ∧
      t.buf = s.buf ∧ t.flen = s.flen ∧ t.wr = s.wr ∧ t.pending = s.pending ∧ frames t = frames s

/-- A frame the length function rejects (another module's) is skipped to its end: no failure, nothing stored. -/
def Obligations.RejectedFrameLeavesNoTrace : Prop :=
  ∀ (s : State) (c : Byte) (cs : List Byte), s.Inv → s.fatal = false →
    s.cfg.wire.escLit0 = s.cfg.wire.escapeMark → s.cfg.wire.escLit1 = s.cfg.wire.startMark →
    lenOf s.cfg c s.myaddr = 0 →
    ∃ t, runInputs s (frame s.cfg.wire (c :: cs)) = .next t ∧ QuietFrame s t ∧
      t.buf = s.buf ∧ RingSame s t ∧ t.fwin.count true ≤ s.fwin.count true

/-- R140: `LEN_std`, its five lines in order. -/
def Obligations.StandardLengthFunction : Prop :=
  ∀ (cfg : Cfg) (c a : Byte), cfg.lenFn = .std →
    (c = cfg.wire.addrStrobe → lenOf cfg c a = 1) ∧
    (c = cfg.wire.addrInvalid → lenOf cfg c a = 0) ∧
    (c = cfg.wire.addrBroadcast → lenOf cfg c a = cfg.cmdlen) ∧
    (c ≠ cfg.wire.addrStrobe → c ≠ cfg.wire.addrInvalid → c = a → lenOf cfg c a = cfg.cmdlen) ∧
    (c ≠ cfg.wire.addrStrobe → c ≠ cfg.wire.addrBroadcast → c ≠ a → lenOf cfg c a = 0)

/-- R6, U13: every configuration a block can be built with meets the constraints, the length bound for every byte and
address among them; fields that meet them do build a block. -/
def Obligations.ConfigurationsMeetConstraints : Prop :=
  (∀ (f : CfgFields) (cfg : Cfg), Cfg.ofFields? f = some cfg →
    cfg.toCfgFields = f ∧ 1 ≤ f.nbuf ∧ f.nbuf ≤ 255 ∧ 2 ≤ f.buflen ∧ f.buflen ≤ 255 ∧ 2 ≤ f.cmdlen ∧
    f.cmdlen ≤ f.buflen ∧ 1 ≤ f.failWindow ∧ f.failThreshold < f.failWindow ∧
    (f.outmax = 0xFFFF ∨ f.outmax = 0x00FF) ∧ f.wire.startMark ≠ f.wire.escapeMark ∧
    f.wire.escCode0 ≠ f.wire.startMark ∧ f.wire.escCode1 ≠ f.wire.startMark ∧
    ∀ c a, lenOf cfg c a ≤ f.buflen) ∧
  (∀ f : CfgFields, f.wire = Wire.vl → 1 ≤ f.nbuf → f.nbuf ≤ 255 → 2 ≤ f.buflen → f.buflen ≤ 255 → 2 ≤ f.cmdlen →
    f.cmdlen ≤ f.buflen → 1 ≤ f.failWindow → f.failThreshold < f.failWindow →
    (f.outmax = 0xFFFF ∨ f.outmax = 0x00FF) →
    (f.lenFn = .std ∨ ∃ rows, f.lenFn = .table rows ∧ ∀ r ∈ rows, r.len ≤ f.buflen) →
    ∃ cfg, Cfg.ofFields? f = some cfg ∧ cfg.toCfgFields = f)

/-- R76, R141: a receive event reads the module address only while a first content byte is awaited. -/
def Obligations.ModuleAddressReadOnFirstContentByteOnly : Prop :=
  ∀ (s t : State) (i : Instr) (a : Byte), i.isReceive = true → s.st ≠ .gotStart → exec i s = .next t →
    exec i { s with myaddr := a } = .next { t with myaddr := a }

/-! ### Consumer commands -/

/-- R170: NOP answers OK and changes nothing, in every state. -/
def Obligations.NopAnswersOk : Prop :=
  EncodedAs 0x00 (fun _ => .nop) ∧ ∀ s : State, exec .nop s = .next (answered s 0x00 0 0 0)

/-- R171: POLL reports `avail`, `ovf`, `fatal`, `len`, `pending`, answers Fatal, CommandOverflow or OK in that priority,
and clears `ovf` exactly when it reports it with `fatal = 0`. -/
def Obligations.PollReportsAndClearsOverflow : Prop :=
  EncodedAs 0x01 (fun _ => .poll) ∧ ∀ s : State, s.Inv →
    exec .poll s = .next (answered { s with ovf := s.ovf && s.fatal }
      (if s.fatal then 0x09 else if s.ovf then 0x05 else 0x00) 0
      (BitVec.ofNat 32 ((decide (s.pending > 0)).toNat + 2 * s.ovf.toNat + 4 * s.fatal.toNat +
        256 * (if s.pending > 0 then (s.lenAt s.rd).toNat else 0) + 65536 * s.pending)) 0)

/-- R31: the overflow is reported once: of two POLLs with nothing between, the second answers OK, with the same frame
information. -/
def Obligations.OverflowIsReportedOnce : Prop :=
  ∀ s : State, s.Inv → s.fatal = false →
    ∃ t u r0, exec .poll s = .next t ∧ exec .poll t = .next u ∧
      t.responses = s.responses ++ [rWord (if s.ovf then 0x05 else 0x00) 0 (r0 ||| (if s.ovf then 2 else 0)) 0] ∧
      u.responses = t.responses ++ [rWord 0x00 0 r0 0] ∧ t.ovf = false ∧ u.ovf = false

/-- R173: RDBYTE answers Fatal, IndexOutOfRange, or the byte of the oldest pending frame; no state changes. -/
def Obligations.RdbyteReadsOldestPendingFrame : Prop :=
  EncodedAs 0x02 (fun c => .rdbyte (BitVec.ofNat 8 (bNat c))) ∧
  ∀ (s : State) (o : Byte), s.Inv →
    (s.fatal = true → exec (.rdbyte o) s = .next (answered s 0x09 0 0 0)) ∧
    (s.fatal = false → s.pending = 0 ∨ (s.lenAt s.rd).toNat ≤ o.toNat →
      exec (.rdbyte o) s = .next (answered s 0x01 0 0 0)) ∧
    (s.fatal = false → 0 < s.pending → o.toNat < (s.lenAt s.rd).toNat →
      exec (.rdbyte o) s = .next (answered s 0x00 0 (BitVec.ofNat 32 (s.cell s.rd o.toNat).toNat) 0))

/-- R175: RELEASE passes the oldest pending frame, or answers Empty or Fatal and changes nothing. -/
def Obligations.ReleasePassesOldestFrame : Prop :=
  EncodedAs 0x03 (fun _ => .release) ∧
  ∀ s : State,
    (s.fatal = true → exec .release s = .next (answered s 0x09 0 0 0)) ∧
    (s.fatal = false → s.pending = 0 → exec .release s = .next (answered s 0x08 0 0 0)) ∧
    (s.fatal = false → 0 < s.pending → exec .release s =
      .next (answered { s with rd := (s.rd + 1) % s.cfg.nbuf, pending := s.pending - 1 } 0x00 0 0 0))

/-- R176: SETADDR writes any 8-bit value, or answers Fatal and changes nothing. -/
def Obligations.SetaddrWritesModuleAddress : Prop :=
  EncodedAs 0x04 (fun c => .setaddr (BitVec.ofNat 8 (bNat c))) ∧
  ∀ (s : State) (a : Byte),
    (s.fatal = true → exec (.setaddr a) s = .next (answered s 0x09 0 0 0)) ∧
    (s.fatal = false → exec (.setaddr a) s = .next (answered { s with myaddr := a } 0x00 0 0 0))

/-- R177: while fatal the four receiver commands change nothing and answer Fatal, POLL with its `r0` filled in; the
others answer as in the same state without `fatal`. -/
def Obligations.ReceiverCommandsAnswerFatal : Prop :=
  (∀ (s : State) (i : Instr), s.Inv → s.fatal = true → i.isReceive = false →
    (i = .poll ∨ (∃ o, i = .rdbyte o) ∨ i = .release ∨ ∃ a, i = .setaddr a) →
    ∃ r0, exec i s = .next (answered s 0x09 0 r0 0) ∧ (i = .poll → r0.toNat / 65536 = s.pending)) ∧
  (∀ (s t : State) (i : Instr) (f : Bool), i.isReceive = false → i ≠ .poll → (∀ o, i ≠ .rdbyte o) → i ≠ .release →
    (∀ a, i ≠ .setaddr a) → exec i s = .next t → exec i { s with fatal := f } = .next { t with fatal := f })

/-- R108, R109, R110: every command is answered by exactly one response word, with one of the seven status codes the block
returns and flag bits 7:3 zero; a receive event by none. -/
def Obligations.OneResponsePerCommand : Prop :=
  (∀ (s : State) (c : CWord) (rest : List Input), s.Inv → s.inputs = .cmd c :: rest →
    ∃ t r, step s = .next t ∧ t.responses = s.responses ++ [r] ∧
      r.toNat / 2 ^ 72 ∈ [0x00, 0x01, 0x02, 0x03, 0x05, 0x08, 0x09] ∧ r.toNat / 2 ^ 64 % 256 < 8) ∧
  (∀ (s t : State) (x : XWord) (rest : List Input), s.inputs = .rx x :: rest → step s = .next t →
    t.responses = s.responses)

/-- R43: no command touches the decoder, the write cursor, the window, the frames' bytes and lengths, or sets `fatal`. -/
def Obligations.CommandsLeaveReceiverState : Prop :=
  ∀ (s t : State) (c : CWord) (rest : List Input), s.inputs = .cmd c :: rest → step s = .next t →
    t.inputs = rest ∧ t.cfg = s.cfg ∧ t.st = s.st ∧ t.esc = s.esc ∧ t.pos = s.pos ∧ t.explen = s.explen ∧
    t.sten = s.sten ∧ t.wr = s.wr ∧ t.flen = s.flen ∧ t.buf = s.buf ∧ t.fwin = s.fwin ∧ t.fatal = s.fatal ∧
    (opNat c ≠ 0x01 → t.ovf = s.ovf) ∧ (opNat c ≠ 0x03 → t.rd = s.rd ∧ t.pending = s.pending) ∧
    (opNat c ≠ 0x04 → t.myaddr = s.myaddr) ∧ (opNat c ≠ 0x10 → t.cal = s.cal ∧ t.calv = s.calv)

/-! ### Fixed-point commands -/

/-- R192, R193, R191: the exact sum and difference, saturated, with SAT when saturated; no state changes. -/
def Obligations.QaddAndQsubSaturate : Prop :=
  EncodedAs 0x20 (fun c => .qadd (BitVec.ofNat 32 (aNat c)) (BitVec.ofNat 32 (bNat c))) ∧
  EncodedAs 0x21 (fun c => .qsub (BitVec.ofNat 32 (aNat c)) (BitVec.ofNat 32 (bNat c))) ∧
  ∀ (s : State) (a b : Word),
    (∃ r : Word, exec (.qadd a b) s = .next (answered s 0x00 (flagBits (clips (a.toInt + b.toInt)) false false) r 0) ∧
      r.toInt = clip (a.toInt + b.toInt)) ∧
    (∃ r : Word, exec (.qsub a b) s = .next (answered s 0x00 (flagBits (clips (a.toInt - b.toInt)) false false) r 0) ∧
      r.toInt = clip (a.toInt - b.toInt))

/-- R194: the exact product rounded toward minus infinity to a multiple of 1/65536 (z), saturated. -/
def Obligations.QmulFloorsAndSaturates : Prop :=
  EncodedAs 0x22 (fun c => .qmul (BitVec.ofNat 32 (aNat c)) (BitVec.ofNat 32 (bNat c))) ∧
  ∀ (s : State) (a b : Word), ∃ (z : Int) (r : Word),
    65536 * z ≤ a.toInt * b.toInt ∧ a.toInt * b.toInt < 65536 * (z + 1) ∧
    exec (.qmul a b) s = .next (answered s 0x00 (flagBits (clips z) false false) r 0) ∧ r.toInt = clip z

/-- R195: the exact quotient rounded toward zero (z), saturated; a zero divisor answers the extreme of the dividend's sign
with SAT and DIVZ. -/
def Obligations.QdivTruncatesAndSaturates : Prop :=
  EncodedAs 0x23 (fun c => .qdiv (BitVec.ofNat 32 (aNat c)) (BitVec.ofNat 32 (bNat c))) ∧
  ∀ (s : State) (a b : Word),
    (b = 0 → exec (.qdiv a b) s =
      .next (answered s 0x00 0x03 (if 0 ≤ a.toInt then 0x7FFFFFFF else 0x80000000) 0)) ∧
    (b ≠ 0 → ∃ (z : Int) (r : Word),
      z.natAbs * b.toInt.natAbs ≤ a.toInt.natAbs * 65536 ∧
      a.toInt.natAbs * 65536 < (z.natAbs + 1) * b.toInt.natAbs ∧ 0 ≤ z * (a.toInt * b.toInt) ∧
      exec (.qdiv a b) s = .next (answered s 0x00 (flagBits (clips z) false false) r 0) ∧ r.toInt = clip z)

/-- R196: the signed compare answers -1, 0 or +1. -/
def Obligations.QcmpAnswersSign : Prop :=
  EncodedAs 0x24 (fun c => .qcmp (BitVec.ofNat 32 (aNat c)) (BitVec.ofNat 32 (bNat c))) ∧
  ∀ (s : State) (a b : Word),
    ∃ r : Word, exec (.qcmp a b) s = .next (answered s 0x00 0 r 0) ∧ r.toInt = (a.toInt - b.toInt).sign

/-- R197, R198: the smaller and the larger operand, signed, unchanged. -/
def Obligations.QminAndQmaxAreSigned : Prop :=
  EncodedAs 0x25 (fun c => .qmin (BitVec.ofNat 32 (aNat c)) (BitVec.ofNat 32 (bNat c))) ∧
  EncodedAs 0x26 (fun c => .qmax (BitVec.ofNat 32 (aNat c)) (BitVec.ofNat 32 (bNat c))) ∧
  ∀ (s : State) (a b : Word),
    (∃ r : Word, exec (.qmin a b) s = .next (answered s 0x00 0 r 0) ∧ r.toInt = min a.toInt b.toInt ∧
      (r = a ∨ r = b)) ∧
    (∃ r : Word, exec (.qmax a b) s = .next (answered s 0x00 0 r 0) ∧ r.toInt = max a.toInt b.toInt ∧
      (r = a ∨ r = b))

/-! ### Color Corrector -/

/-- R210: CALW writes the register and its valid bit and nothing else; an index above 11 writes nothing. -/
def Obligations.CalwWritesOneRegister : Prop :=
  EncodedAs 0x10 (fun c => .calw (BitVec.ofNat 4 (aNat c)) (BitVec.ofNat 32 (bNat c))) ∧
  ∀ (s : State) (i : BitVec 4) (v : Word),
    (11 < i.toNat → exec (.calw i v) s = .next (answered s 0x01 0 0 0)) ∧
    (i.toNat ≤ 11 → ∃ t, exec (.calw i v) s = .next (answered t 0x00 0 0 0) ∧
      t.readCal i.toNat = v ∧ t.calValid i.toNat = true ∧
      (∀ j, j ≠ i.toNat → t.readCal j = s.readCal j ∧ t.calValid j = s.calValid j) ∧
      { t with cal := s.cal, calv := s.calv } = s)

/-- R211: CALR answers the register, NoConfiguration while it is unwritten, IndexOutOfRange above 11; no state
changes. -/
def Obligations.CalrReadsWrittenRegister : Prop :=
  EncodedAs 0x11 (fun c => .calr (BitVec.ofNat 4 (aNat c))) ∧
  ∀ (s : State) (i : BitVec 4),
    (11 < i.toNat → exec (.calr i) s = .next (answered s 0x01 0 0 0)) ∧
    (i.toNat ≤ 11 → s.calValid i.toNat = false → exec (.calr i) s = .next (answered s 0x03 0 0 0)) ∧
    (i.toNat ≤ 11 → s.calValid i.toNat = true → exec (.calr i) s = .next (answered s 0x00 0 (s.readCal i.toNat) 0))

/-- R219: CORRECT with any register unwritten answers NoConfiguration. -/
def Obligations.CorrectNeedsFullCalibration : Prop :=
  ∀ (s : State) (x y lum : Half), (∃ i, i < 12 ∧ s.calValid i = false) →
    exec (.correct x y lum) s = .next (answered s 0x03 0 0 0)

/-- R212 to R218: with a full calibration CORRECT answers what the steps give in exact integer arithmetic with explicit
clipping, DEGEN and SAT as they report; without one, NoConfiguration; it changes nothing. -/
def Obligations.CorrectComputesTheTransform : Prop :=
  EncodedAs 0x12 (fun c =>
    .correct (BitVec.ofNat 16 (aNat c / 65536)) (BitVec.ofNat 16 (aNat c)) (BitVec.ofNat 16 (bNat c))) ∧
  ∀ (s : State) (x y lum : Half),
    (¬ Calibrated s → exec (.correct x y lum) s = .next (answered s 0x03 0 0 0)) ∧
    (Calibrated s →
      ∃ r g b : Half,
        let z := correctZ s.cfg.outmax.toNat (fun i => (s.readCal i).toInt) x.toNat y.toNat lum.toNat
        exec (.correct x y lum) s = .next (answered s 0x00 (flagBits z.sat false z.degen)
          (BitVec.ofNat 32 (r.toNat * 65536 + g.toNat)) (BitVec.ofNat 32 b.toNat)) ∧
        (r.toNat : Int) = z.r ∧ (g.toNat : Int) = z.g ∧ (b.toNat : Int) = z.b)

/-- VL's contract for the outputs (R7, R212): each lies in 0..OUTMAX, whatever the calibration. -/
def Obligations.CorrectStaysInOutputRange : Prop :=
  ∀ (s : State) (x y lum : Half), Calibrated s →
    ∃ (r g b : Half) (flags : Byte),
      exec (.correct x y lum) s = .next (answered s 0x00 flags (r ++ g) (b.setWidth 32)) ∧
      r.toNat ≤ s.cfg.outmax.toNat ∧ g.toNat ≤ s.cfg.outmax.toNat ∧ b.toNat ≤ s.cfg.outmax.toNat

/-- R221, the colour-priority law. Where the requested scale exceeds the largest one, the outputs are the ratios at the
largest scale, whatever luminosity was asked for: dimmed, never shifted in colour. And more requested luminosity never
lowers an output. -/
def Obligations.ColourWinsOverBrightness : Prop :=
  (∀ (outmax : Half) (m : Nat → Word) (x y lum : Half),
    let c := correctColour outmax m x y lum
    let n := fun i => (m i).toInt
    let q0 := clampZ (sumZ (mulZ (n 0) x.toNat) (mulZ (n 1) y.toNat) (n 2)).1
    let q1 := clampZ (sumZ (mulZ (n 3) x.toNat) (mulZ (n 4) y.toNat) (n 5)).1
    let q2 := clampZ (sumZ (mulZ (n 6) x.toNat) (mulZ (n 7) y.toNat) (n 8)).1
    let total := (sumZ (mulZ q0 (n 9)) (mulZ q1 (n 10)) (mulZ q2 (n 11))).1
    0 < total → maxScaleZ [q0, q1, q2] < clip (divZ lum.toNat total) →
      (c.r.toNat : Int) = outZ outmax.toNat q0 (maxScaleZ [q0, q1, q2]) ∧
      (c.g.toNat : Int) = outZ outmax.toNat q1 (maxScaleZ [q0, q1, q2]) ∧
      (c.b.toNat : Int) = outZ outmax.toNat q2 (maxScaleZ [q0, q1, q2])) ∧
  (∀ (outmax : Half) (m : Nat → Word) (x y lum lum' : Half), lum.toNat ≤ lum'.toNat →
    let c := correctColour outmax m x y lum
    let c' := correctColour outmax m x y lum'
    c.r.toNat ≤ c'.r.toNat ∧ c.g.toNat ≤ c'.g.toNat ∧ c.b.toNat ≤ c'.b.toNat)

/-- R220: the identity example. -/
def Obligations.IdentityCalibrationExample : Prop :=
  ∀ s : State, Calibrated s → s.cfg.outmax = 0xFFFF →
    (∀ i, i < 12 → s.readCal i = if i ∈ [0, 4, 8, 9, 10, 11] then 0x00010000 else 0) →
    exec (.correct 0x8000 0x8000 0xFFFF) s = .next (answered s 0x00 0x00 0x3FFE3FFE 0x00007FFE)

/-! ### Reset, invariants, the machine as a whole -/

/-- R41: the values the spec gives for reset, for every configuration (`flen`, `BUF`, `CAL` are unspecified there). -/
def Obligations.ResetStateHasSpecifiedValues : Prop :=
  (∃ c, State.reset = State.resetOf c) ∧
  ∀ c : Cfg, let s := State.resetOf c
    s.cfg = c ∧ s.st = .idle ∧ s.st.code = 0 ∧ s.esc = false ∧ s.pos = 0 ∧ s.explen = 0 ∧ s.sten = false ∧ s.wr = 0 ∧
    s.rd = 0 ∧ s.pending = 0 ∧ s.ovf = false ∧ s.fwin = List.replicate c.failWindow false ∧ s.fatal = false ∧
    s.myaddr = 0xFF ∧ s.calv = 0

/-- R260, R41: the reset input, from any state at all, gives every item the table's value. (`flen`, `BUF` and `CAL` are
unspecified there and no clause speaks of them.) -/
def Obligations.ResetInputRestoresResetState : Prop :=
  ∀ (s : State) (rest : List Input), s.inputs = .reset :: rest →
    ∃ t, step s = .next t ∧ t.st = .idle ∧ t.esc = false ∧ t.pos = 0 ∧ t.explen = 0 ∧ t.sten = false ∧ t.wr = 0 ∧
      t.rd = 0 ∧ t.pending = 0 ∧ t.ovf = false ∧ t.fwin = List.replicate s.cfg.failWindow false ∧ t.fatal = false ∧
      t.myaddr = 0xFF ∧ t.calv = 0

/-- The model's choice (log 1, 5, 7, 16): the reset input is taken from the inputs like any other, and what is outside the
block, the configuration, the inputs still to come and the responses already returned, is as before. -/
def Obligations.ResetLeavesInputsAndResponses : Prop :=
  ∀ (s t : State) (rest : List Input), s.inputs = .reset :: rest → step s = .next t →
    t.inputs = rest ∧ t.responses = s.responses ∧ t.cfg = s.cfg

/-- The invariants hold after reset, in every configuration. -/
def Obligations.ResetStateMeetsInvariant : Prop := ∀ c : Cfg, (State.resetOf c).Inv

/-- R40: every step keeps the invariants, from every state that meets them. -/
def Obligations.StepKeepsInvariant : Prop := ∀ s t : State, s.Inv → step s = .next t → t.Inv

/-- 93_implementation_defined.md: "every X word and every C word has exactly one defined outcome in every state": from a
state that meets the invariants no step stops. -/
def Obligations.StepNeverStops : Prop := ∀ s : State, s.Inv → ∃ t, step s = .next t

/-- R75, R28: the pending frames are a queue. A receive event leaves it alone or puts one frame at its end, RELEASE takes
the first, reset empties it, and nothing else changes it. -/
def Obligations.PendingFramesFormFifo : Prop :=
  ∀ s t : State, s.Inv → step s = .next t →
    frames t = frames s ∨
    (∃ x p, s.inputs.head? = some (.rx x) ∧ p ≠ [] ∧ frames t = frames s ++ [p]) ∨
    (∃ c, s.inputs.head? = some (.cmd c) ∧ opNat c = 0x03 ∧ s.fatal = false ∧ frames t = (frames s).tail) ∨
    (s.inputs.head? = some .reset ∧ frames t = [])

/-- R34: `MYADDR` is written by SETADDR and by reset, and by nothing else. -/
def Obligations.OnlySetaddrAndResetWriteMyaddr : Prop :=
  ∀ s t : State, step s = .next t → t.myaddr ≠ s.myaddr →
    (∃ c, s.inputs.head? = some (.cmd c) ∧ opNat c = 0x04 ∧ t.myaddr = BitVec.ofNat 8 (bNat c)) ∨
    (s.inputs.head? = some .reset ∧ t.myaddr = 0xFF)

/-- The configuration is fixed: no step changes it (R14: a parameter, not state). -/
def Obligations.StepKeepsConfiguration : Prop := ∀ s t : State, step s = .next t → t.cfg = s.cfg

/-- R42: the level outputs are `fatal` and `pending > 0`, and POLL's `fatal` and `avail` bits show the same two. -/
def Obligations.LevelOutputsShowFatalAndPending : Prop :=
  ∀ s : State, (s.fatalO = true ↔ s.fatal = true) ∧ (s.availO = true ↔ 0 < s.pending) ∧
    (s.Inv → ∃ t r, exec .poll s = .next t ∧ t.responses = s.responses ++ [r] ∧
      r.toNat / 2 ^ 32 % 2 = s.availO.toNat ∧ r.toNat / 2 ^ 34 % 2 = s.fatalO.toNat)
end

