-- ==== Sys2Proof/Laws/Arith.lean ====
section
/-! SUPPORT. The Q16.16 primitives on integers: what each result is as a two's complement number, and when it saturates. -/

namespace Sys2Proof.Machine

/-- Saturation is the nearest representable integer. -/
theorem sat32_toInt (z : Int) : (sat32 z).toInt = max (-2147483648) (min z 2147483647) := by
  unfold sat32
  split
  · rw [show (0x7FFFFFFF : Word).toInt = 2147483647 by decide]
    omega
  · split
    · rw [show (0x80000000 : Word).toInt = -2147483648 by decide]
      omega
    · rw [BitVec.toInt_ofInt_eq_self (by decide) (by simpa using (by omega)) (by simpa using (by omega))]
      omega

/-- The SAT flag is set exactly when saturation changes the result. -/
theorem satFlag_eq (z : Int) : satFlag z = decide (max (-2147483648) (min z 2147483647) ≠ z) := by
  unfold satFlag
  rw [Bool.eq_iff_iff]
  simp only [Bool.or_eq_true, decide_eq_true_eq]
  omega

/-- A Q16.16 value lies in the 32-bit range. -/
theorem toInt_range (a : Word) : -2147483648 ≤ a.toInt ∧ a.toInt ≤ 2147483647 := by
  have h1 := BitVec.le_toInt a
  have h2 := BitVec.toInt_lt (x := a)
  constructor <;> omega

@[simp] theorem saturate_value (z : Int) : (saturate z).value = sat32 z := rfl
@[simp] theorem saturate_sat (z : Int) : (saturate z).sat = satFlag z := rfl
@[simp] theorem saturate_divz (z : Int) : (saturate z).divz = false := rfl

@[simp] theorem qZero_toInt : qZero.toInt = 0 := by decide
@[simp] theorem qOne_toInt : qOne.toInt = 65536 := by decide
@[simp] theorem qMaxV_toInt : qMaxV.toInt = 2147483647 := by decide
@[simp] theorem qMinV_toInt : qMinV.toInt = -2147483648 := by decide

theorem qMin_toInt (a b : Word) : (qMin a b).toInt = min a.toInt b.toInt := by
  unfold qMin
  split <;> omega

theorem qMax_toInt (a b : Word) : (qMax a b).toInt = max a.toInt b.toInt := by
  unfold qMax
  split <;> omega

theorem qMin_mem (a b : Word) : qMin a b = a ∨ qMin a b = b := by
  unfold qMin
  split <;> simp

theorem qMax_mem (a b : Word) : qMax a b = a ∨ qMax a b = b := by
  unfold qMax
  split <;> simp

theorem clamp01_toInt (v : Word) : (clamp01 v).toInt = max 0 (min v.toInt 65536) := by
  unfold clamp01
  rw [qMin_toInt, qMax_toInt, qZero_toInt, qOne_toInt]
  omega

theorem qMul_eq (a b : Word) : qMul a b = saturate (a.toInt * b.toInt / 65536) := by
  unfold qMul
  rw [Int.fdiv_eq_ediv_of_nonneg _ (by decide)]

/-- Division by a nonzero value. -/
theorem qDiv_eq {b : Word} (hb : b.toInt ≠ 0) (a : Word) :
    qDiv a b = saturate (Int.tdiv (a.toInt * 65536) b.toInt) := by
  simp [qDiv, hb]

/-- A zero-extended 16-bit input is its own value (R213). -/
theorem toQ_toInt (x : Half) : (toQ x).toInt = x.toNat := by
  have hx := x.isLt
  unfold toQ
  rw [BitVec.toInt_eq_toNat_of_lt]
  · simp; omega
  · simp; omega

/-- The compare answers the sign of the difference. -/
theorem qCmp_toInt (a b : Word) : (qCmp a b).toInt = (a.toInt - b.toInt).sign := by
  unfold qCmp
  split
  · rw [Int.sign_eq_neg_one_of_neg (by omega)]; decide
  · split
    · rw [show a.toInt - b.toInt = 0 by omega]; decide
    · rw [Int.sign_eq_one_of_pos (by omega)]; decide

/-- A clamped value read unsigned is the value read signed, between 0 and 1.0. -/
theorem clamp01_toNat (v : Word) : ((clamp01 v).toNat : Int) = (clamp01 v).toInt ∧ (clamp01 v).toNat ≤ 65536 := by
  have h := clamp01_toInt v
  have h2 : 0 ≤ (clamp01 v).toInt ∧ (clamp01 v).toInt ≤ 65536 := by omega
  have h3 := BitVec.toInt_eq_toNat_cond (clamp01 v)
  have h4 := (clamp01 v).isLt
  constructor
  · split at h3 <;> omega
  · split at h3 <;> omega

/-- The output never exceeds OUTMAX, and is the truncated product (R218). -/
theorem outputOf_toNat {f : Word} (hf : f.toNat ≤ 65536) (outmax : Half) :
    (outputOf outmax f).toNat = f.toNat * outmax.toNat / 65536 ∧ (outputOf outmax f).toNat ≤ outmax.toNat := by
  have ho := outmax.isLt
  have h : f.toNat * outmax.toNat / 65536 ≤ outmax.toNat := by
    have : f.toNat * outmax.toNat ≤ 65536 * outmax.toNat := Nat.mul_le_mul_right _ hf
    omega
  unfold outputOf
  rw [BitVec.toNat_ofNat]
  omega

end Sys2Proof.Machine
end

