-- ==== Sys2Proof/Laws/Config.lean ====
section
/-! SUPPORT. What a `Cfg` guarantees (00_scope.md R6), the bound of the length function, and that the table form of
`LEN` leaves no total function out. -/

namespace Sys2Proof

open Sys2Proof.Machine

/-- The constraints of R6 as one conjunction. -/
theorem CfgFields.legal_iff (c : CfgFields) :
    c.legal = true ↔
      1 ≤ c.nbuf ∧ c.nbuf ≤ 255 ∧ 2 ≤ c.buflen ∧ c.buflen ≤ 255 ∧ 2 ≤ c.cmdlen ∧ c.cmdlen ≤ c.buflen ∧
      c.lenFn.fits c.buflen = true ∧ 1 ≤ c.failWindow ∧ c.failThreshold < c.failWindow ∧
      (c.outmax = 0xFFFF ∨ c.outmax = 0x00FF) ∧ c.wire.legal = true := by
  simp only [CfgFields.legal, Bool.and_eq_true, decide_eq_true_eq, Bool.or_eq_true, beq_iff_eq]
  tauto

namespace Cfg

variable (c : Cfg)

theorem nbuf_pos : 0 < c.nbuf := (c.toCfgFields.legal_iff.1 c.legal).1
theorem nbuf_le : c.nbuf ≤ 255 := (c.toCfgFields.legal_iff.1 c.legal).2.1
theorem buflen_ge : 2 ≤ c.buflen := (c.toCfgFields.legal_iff.1 c.legal).2.2.1
theorem buflen_le : c.buflen ≤ 255 := (c.toCfgFields.legal_iff.1 c.legal).2.2.2.1
theorem cmdlen_ge : 2 ≤ c.cmdlen := (c.toCfgFields.legal_iff.1 c.legal).2.2.2.2.1
theorem cmdlen_le : c.cmdlen ≤ c.buflen := (c.toCfgFields.legal_iff.1 c.legal).2.2.2.2.2.1
theorem lenFn_fits : c.lenFn.fits c.buflen = true := (c.toCfgFields.legal_iff.1 c.legal).2.2.2.2.2.2.1
theorem failWindow_pos : 1 ≤ c.failWindow := (c.toCfgFields.legal_iff.1 c.legal).2.2.2.2.2.2.2.1
theorem failThreshold_lt : c.failThreshold < c.failWindow := (c.toCfgFields.legal_iff.1 c.legal).2.2.2.2.2.2.2.2.1
theorem outmax_cases : c.outmax = 0xFFFF ∨ c.outmax = 0x00FF := (c.toCfgFields.legal_iff.1 c.legal).2.2.2.2.2.2.2.2.2.1
theorem wire_legal : c.wire.legal = true := (c.toCfgFields.legal_iff.1 c.legal).2.2.2.2.2.2.2.2.2.2

end Cfg

/-- The distinctness the rules need of the wire constants. -/
theorem Wire.legal_iff (w : Wire) :
    w.legal = true ↔
      w.startMark ≠ w.escapeMark ∧ w.escCode0 ≠ w.startMark ∧ w.escCode1 ≠ w.startMark ∧ w.escCode0 ≠ w.escCode1 ∧
      w.addrBroadcast ≠ w.addrStrobe ∧ w.addrBroadcast ≠ w.addrInvalid ∧ w.addrStrobe ≠ w.addrInvalid := by
  simp only [Wire.legal, Bool.and_eq_true, bne_iff_ne]
  tauto

/-- `0 <= LEN(c, a) <= BUFLEN` for every byte and address (R6). -/
theorem lenOf_le (cfg : Cfg) (c a : Byte) : lenOf cfg c a ≤ cfg.buflen := by
  have h2 := cfg.buflen_ge
  have hc := cfg.cmdlen_le
  have hf := cfg.lenFn_fits
  unfold lenOf
  cases h : cfg.lenFn with
  | std =>
    simp only [lenStd]
    split
    · omega
    · split
      · omega
      · split
        · exact hc
        · split
          · exact hc
          · omega
  | table rows =>
    rw [h] at hf
    simp only [LenFn.fits, List.all_eq_true, decide_eq_true_eq] at hf
    simp only [lenTable]
    split
    · rename_i r hr
      exact hf r (List.mem_of_find?_eq_some hr)
    · omega

/-- A length fits the 8-bit registers. -/
theorem lenOf_toNat (cfg : Cfg) (c a : Byte) : (BitVec.ofNat 8 (lenOf cfg c a)).toNat = lenOf cfg c a := by
  have h1 := lenOf_le cfg c a
  have h2 := cfg.buflen_le
  simp only [BitVec.toNat_ofNat]
  omega

/-- Looking a row up by its key in a listing of a function finds the function's value. -/
theorem find_listed (f : Byte → Byte → Nat) (l : List (Byte × Byte)) (c a : Byte) (h : (c, a) ∈ l) :
    lenTable (l.map fun p => { first := p.1, addr := p.2, len := f p.1 p.2 }) c a = f c a := by
  induction l with
  | nil => simp at h
  | cons p l ih =>
    by_cases hp : p = (c, a)
    · subst hp
      simp [lenTable]
    · have hl : (c, a) ∈ l := by
        rcases List.mem_cons.1 h with h | h
        · exact absurd h.symm hp
        · exact h
      have hne : (p.1 == c && p.2 == a) = false := by
        simp only [Bool.and_eq_false_iff, beq_eq_false_iff_ne]
        by_contra hcon
        push Not at hcon
        exact hp (Prod.ext hcon.1 hcon.2)
      have := ih hl
      simp only [lenTable, List.map_cons, List.find?_cons, hne] at this ⊢
      exact this

/-- Every total length function is some table (R6: `LEN` is injected; nothing is left out by holding it as data). -/
theorem every_length_function_is_a_table (f : Byte → Byte → Nat) :
    ∃ rows, ∀ c a, lenTable rows c a = f c a := by
  let bytes : List Byte := (List.finRange 256).map BitVec.ofFin
  refine ⟨(bytes.product bytes).map fun p => { first := p.1, addr := p.2, len := f p.1 p.2 }, fun c a => ?_⟩
  apply find_listed
  have hb : ∀ b : Byte, b ∈ bytes := fun b => List.mem_map.2 ⟨b.toFin, List.mem_finRange _, rfl⟩
  exact List.pair_mem_product.2 ⟨hb c, hb a⟩

end Sys2Proof
end

