-- ==== Sys2Proof/Laws/Decode.lean ====
section
/-! SUPPORT. Words by their fields and fields of built words; the opcode map as cases. -/

namespace Sys2Proof

/-! ### Fields of a command word -/

theorem opField_toNat (c : CWord) : (opField c).toNat = c.toNat / 2 ^ 64 := by
  have := c.isLt
  simp only [opField, BitVec.extractLsb'_toNat, Nat.shiftRight_eq_div_pow]
  omega

theorem aField_toNat (c : CWord) : (aField c).toNat = c.toNat / 2 ^ 32 % 2 ^ 32 := by
  simp only [aField, BitVec.extractLsb'_toNat, Nat.shiftRight_eq_div_pow]

theorem bField_toNat (c : CWord) : (bField c).toNat = c.toNat % 2 ^ 32 := by
  simp only [bField, BitVec.extractLsb'_toNat, Nat.shiftRight_eq_div_pow]
  simp

@[simp] theorem opField_cWord (op : Byte) (a b : Word) : opField (cWord op a b) = op := by
  apply BitVec.eq_of_toNat_eq
  have ha := a.isLt
  have hb := b.isLt
  have hab := (a ++ b).isLt
  rw [opField_toNat]
  simp only [cWord, BitVec.toNat_append]
  rw [← Nat.shiftLeft_add_eq_or_of_lt hb, ← Nat.shiftLeft_add_eq_or_of_lt]
  · simp only [Nat.shiftLeft_eq]; omega
  · simp only [Nat.shiftLeft_eq]; omega

@[simp] theorem aField_cWord (op : Byte) (a b : Word) : aField (cWord op a b) = a := by
  apply BitVec.eq_of_toNat_eq
  have ha := a.isLt
  have hb := b.isLt
  rw [aField_toNat]
  simp only [cWord, BitVec.toNat_append]
  rw [← Nat.shiftLeft_add_eq_or_of_lt hb, ← Nat.shiftLeft_add_eq_or_of_lt]
  · simp only [Nat.shiftLeft_eq]; omega
  · simp only [Nat.shiftLeft_eq]; omega

@[simp] theorem bField_cWord (op : Byte) (a b : Word) : bField (cWord op a b) = b := by
  apply BitVec.eq_of_toNat_eq
  have ha := a.isLt
  have hb := b.isLt
  rw [bField_toNat]
  simp only [cWord, BitVec.toNat_append]
  rw [← Nat.shiftLeft_add_eq_or_of_lt hb, ← Nat.shiftLeft_add_eq_or_of_lt]
  · simp only [Nat.shiftLeft_eq]; omega
  · simp only [Nat.shiftLeft_eq]; omega

/-! ### Fields of a receive-event word -/

theorem xFlags_toNat (x : XWord) : (xFlags x).toNat = x.toNat / 256 := by
  have := x.isLt
  simp only [xFlags, BitVec.extractLsb'_toNat, Nat.shiftRight_eq_div_pow]
  omega

theorem xData_toNat (x : XWord) : (xData x).toNat = x.toNat % 256 := by
  simp only [xData, BitVec.extractLsb'_toNat, Nat.shiftRight_eq_div_pow]
  simp

@[simp] theorem xFlags_append (f : BitVec 4) (d : Byte) : xFlags (f ++ d) = f := by
  apply BitVec.eq_of_toNat_eq
  have hf := f.isLt
  have hd := d.isLt
  rw [xFlags_toNat]
  simp only [BitVec.toNat_append]
  rw [← Nat.shiftLeft_add_eq_or_of_lt hd]
  simp only [Nat.shiftLeft_eq]; omega

@[simp] theorem xData_append (f : BitVec 4) (d : Byte) : xData (f ++ d) = d := by
  apply BitVec.eq_of_toNat_eq
  have hf := f.isLt
  have hd := d.isLt
  rw [xData_toNat]
  simp only [BitVec.toNat_append]
  rw [← Nat.shiftLeft_add_eq_or_of_lt hd]
  simp only [Nat.shiftLeft_eq]; omega

@[simp] theorem xFlags_xByte (d : Byte) : xFlags (xByte d) = 0 := xFlags_append 0 d
@[simp] theorem xData_xByte (d : Byte) : xData (xByte d) = d := xData_append 0 d

/-! ### The opcode map -/

/-- Looking up a code the map lists. -/
theorem decodeCmd_of_lookup {c : CWord} {f : Word → Word → Instr} (h : opcodeMap.lookup (opField c) = some f) :
    decodeCmd c = .op (f (aField c) (bField c)) := by
  simp [decodeCmd, h]

/-- No two rows of the opcode map share a code. -/
theorem opcodeMap_codes_distinct : (opcodeMap.map Prod.fst).Pairwise (· ≠ ·) := by decide

/-- Everything a command word can decode to: a row of the map, or a reserved `op`. -/
theorem decodeCmd_cases (c : CWord) :
    (∃ row ∈ opcodeMap, opField c = row.1 ∧ decodeCmd c = .op (row.2 (aField c) (bField c))) ∨
    ((∀ row ∈ opcodeMap, opField c ≠ row.1) ∧ decodeCmd c = .rejected (.reservedOp (opField c))) := by
  have key : ∀ (l : List (Byte × (Word → Word → Instr))) (k : Byte),
      (∃ row ∈ l, k = row.1 ∧ l.lookup k = some row.2) ∨ ((∀ row ∈ l, k ≠ row.1) ∧ l.lookup k = none) := by
    intro l k
    induction l with
    | nil => exact .inr ⟨by simp, rfl⟩
    | cons r l ih =>
      obtain ⟨r1, r2⟩ := r
      by_cases hk : k = r1
      · exact .inl ⟨(r1, r2), by simp, hk, by simp [List.lookup, hk]⟩
      · have hb : (k == r1) = false := by simpa using hk
        rcases ih with ⟨row, hm, he, hl⟩ | ⟨hn, hl⟩
        · exact .inl ⟨row, by simp [hm], he, by simp [List.lookup, hb, hl]⟩
        · refine .inr ⟨fun row hm => ?_, by simp [List.lookup, hb, hl]⟩
          rcases List.mem_cons.1 hm with rfl | hm
          · exact hk
          · exact hn row hm
  rcases key opcodeMap (opField c) with ⟨row, hm, he, hl⟩ | ⟨hn, hl⟩
  · exact .inl ⟨row, hm, he, by simp [decodeCmd, hl]⟩
  · exact .inr ⟨hn, by simp [decodeCmd, hl]⟩

/-- A receive-event word of a live decoder state decodes to a receive operation. -/
theorem decodeRx_live {w : Wire} {c : RxContext} (hf : c.fatal = false) (hc : c.st ≠ .corrupt) (x : XWord) :
    ∃ i, decodeRx w c x = .op i ∧ i.isReceive = true ∧ i.wf w = true ∧ i.selectableIn c = true := by
  have hframe : c.st ≠ .idle → c.st.inFrame = true := by
    intro hi
    cases hst : c.st <;> simp_all [DecSt.inFrame]
  have hlive : c.live = true := by simp [RxContext.live, hf, hc]
  unfold decodeRx
  rw [if_neg (by simp [hf]), if_neg hc]
  split
  · exact ⟨_, rfl, rfl, by simpa [Instr.wf] using ‹_›, hlive⟩
  · split
    · exact ⟨_, rfl, rfl, rfl, hlive⟩
    · split
      · exact ⟨_, rfl, rfl, by simpa [Instr.wf] using ‹_›, by simp [Instr.selectableIn, *]⟩
      · have hin := hframe ‹_›
        split
        · split
          · exact ⟨_, rfl, rfl, rfl, by simp [Instr.selectableIn, *]⟩
          · split
            · exact ⟨_, rfl, rfl, rfl, by simp [Instr.selectableIn, *]⟩
            · exact ⟨_, rfl, rfl, by simp [Instr.wf, *], by simp [Instr.selectableIn, *]⟩
        · split
          · exact ⟨_, rfl, rfl, rfl, by simp [Instr.selectableIn, *]⟩
          · exact ⟨_, rfl, rfl, by simp [Instr.wf, *], by simp [Instr.selectableIn, *]⟩

end Sys2Proof
end

