-- ==== Sys2Proof/Laws/Flags.lean ====
section
/-! SUPPORT. The response word as a number: its four fields at their places (30_encoding.md R108, R110, R111). -/

namespace Sys2Proof.Machine

/-- The response word by its fields' values. -/
theorem responseWord_toNat (st : Status) (fl : Byte) (r0 r1 : Word) :
    (responseWord st fl r0 r1).toNat =
      (statusCode st).toNat * 2 ^ 72 + fl.toNat * 2 ^ 64 + r0.toNat * 2 ^ 32 + r1.toNat := by
  have h0 := r0.isLt
  have h1 := r1.isLt
  have hf := fl.isLt
  unfold responseWord
  simp only [BitVec.toNat_append]
  rw [← Nat.shiftLeft_add_eq_or_of_lt h1, ← Nat.shiftLeft_add_eq_or_of_lt h0, ← Nat.shiftLeft_add_eq_or_of_lt hf]
  simp only [Nat.shiftLeft_eq]
  ring

/-- The flags byte by its bits' values. -/
theorem flagsByte_eq (sat divz degen : Bool) :
    flagsByte sat divz degen = BitVec.ofNat 8 (sat.toNat + 2 * divz.toNat + 4 * degen.toNat) := by
  cases sat <;> cases divz <;> cases degen <;> decide

/-- POLL's result field by its fields' values. -/
theorem pollWord_toNat {pending : Nat} (h : pending < 256) (len : Byte) (fatal ovf : Bool) :
    (pollWord pending len fatal ovf).toNat =
      (decide (pending > 0)).toNat + 2 * ovf.toNat + 4 * fatal.toNat + 256 * len.toNat + 65536 * pending := by
  have hl := len.isLt
  have b1 := (BitVec.ofBool (decide (pending > 0))).isLt
  have b2 := (BitVec.ofBool ovf).isLt
  have b3 := (BitVec.ofBool fatal).isLt
  have b4 := (0 : BitVec 5).isLt
  unfold pollWord
  simp only [BitVec.toNat_setWidth, BitVec.toNat_append]
  rw [← Nat.shiftLeft_add_eq_or_of_lt b1, ← Nat.shiftLeft_add_eq_or_of_lt b2, ← Nat.shiftLeft_add_eq_or_of_lt b3,
    ← Nat.shiftLeft_add_eq_or_of_lt b4, ← Nat.shiftLeft_add_eq_or_of_lt hl]
  simp only [Nat.shiftLeft_eq, BitVec.toNat_ofNat, BitVec.toNat_ofBool]
  cases fatal <;> cases ovf <;> cases decide (pending > 0) <;> simp <;> omega

end Sys2Proof.Machine
end

