-- ==== Sys2Proof/Laws/Memory.lean ====
section
/-! SUPPORT. The laws of the frame buffer memory: read after write, and the canonical form is kept. -/

namespace Sys2Proof.Machine

@[simp] theorem read_nil (a : Nat) : Memory.read [] a = Memory.unlisted := rfl

theorem wf_nil : Memory.wf [] := by simp [Memory.wf]

theorem wf_cons {c : Host.Cell} {m : Memory} :
    Memory.wf (c :: m) ↔ (∀ d ∈ m, c.1 < d.1) ∧ c.2 ≠ Memory.unlisted ∧ Memory.wf m := by
  simp only [Memory.wf, List.pairwise_cons, List.mem_cons, forall_eq_or_imp]
  tauto

/-- A key that no entry lists reads as an unlisted cell. -/
theorem read_unlisted {m : Memory} {a : Nat} (h : ∀ c ∈ m, c.1 ≠ a) : m.read a = Memory.unlisted := by
  induction m with
  | nil => rfl
  | cons c m ih =>
    have hc : c.1 ≠ a := h c (by simp)
    simp only [Memory.read, hc, if_false]
    exact ih fun d hd => h d (by simp [hd])

/-- A write leaves every other key alone. -/
theorem read_write_other (m : Memory) {a b : Nat} (v : Byte) (h : b ≠ a) : (m.write a v).read b = m.read b := by
  induction m with
  | nil =>
    simp only [Memory.write]
    split <;> simp [Memory.read, Ne.symm h]
  | cons c m ih =>
    obtain ⟨k, u⟩ := c
    simp only [Memory.write]
    split
    · split <;> simp [Memory.read, Ne.symm h]
    · split
      · rename_i hk
        subst hk
        split <;> simp [Memory.read, Ne.symm h]
      · simp [Memory.read, ih]

/-- A read after a write to the same key gives the value written. -/
theorem read_write_same {m : Memory} (hm : m.wf) (a : Nat) (v : Byte) : (m.write a v).read a = v := by
  induction m with
  | nil =>
    simp only [Memory.write]
    split
    · rename_i hv; simp [hv]
    · simp [Memory.read]
  | cons c m ih =>
    obtain ⟨k, u⟩ := c
    obtain ⟨hlt, hu, hm'⟩ := wf_cons.1 hm
    simp only [Memory.write]
    split
    · rename_i hak
      split
      · rename_i hv
        rw [hv]
        refine read_unlisted fun d hd => ?_
        rcases List.mem_cons.1 hd with rfl | hd
        · exact (Nat.ne_of_gt hak)
        · have := hlt d hd
          simp only at this
          omega
      · simp [Memory.read]
    · split
      · rename_i hk
        subst hk
        split
        · rename_i hv
          rw [hv]
          exact read_unlisted fun d hd => Nat.ne_of_gt (hlt d hd)
        · simp [Memory.read]
      · rename_i hk
        simp [Memory.read, Ne.symm hk, ih hm']

/-- The keys after a write are those before and the one written. -/
theorem mem_write {m : Memory} {a : Nat} {v : Byte} {c : Host.Cell} (h : c ∈ m.write a v) :
    c ∈ m ∨ c = (a, v) := by
  induction m with
  | nil =>
    simp only [Memory.write] at h
    split at h <;> simp_all
  | cons d m ih =>
    obtain ⟨k, u⟩ := d
    simp only [Memory.write] at h
    split at h
    · split at h
      · simp_all
      · simp_all; tauto
    · split at h
      · split at h <;> simp_all
        tauto
      · simp only [List.mem_cons] at h ⊢
        rcases h with h | h
        · exact .inl (.inl h)
        · rcases ih h with h | h
          · exact .inl (.inr h)
          · exact .inr h

/-- Every memory operation keeps the canonical form; a write is the only one. -/
theorem write_wf {m : Memory} (hm : m.wf) (a : Nat) (v : Byte) : (m.write a v).wf := by
  induction m with
  | nil =>
    simp only [Memory.write]
    split
    · exact wf_nil
    · rename_i hv
      exact wf_cons.2 ⟨by simp, hv, wf_nil⟩
  | cons c m ih =>
    obtain ⟨k, u⟩ := c
    obtain ⟨hlt, hu, hm'⟩ := wf_cons.1 hm
    simp only [Memory.write]
    split
    · rename_i hak
      split
      · exact hm
      · rename_i hv
        refine wf_cons.2 ⟨fun d hd => ?_, hv, hm⟩
        rcases List.mem_cons.1 hd with rfl | hd
        · exact hak
        · exact Nat.lt_trans hak (hlt d hd)
    · split
      · rename_i hk
        split
        · exact hm'
        · rename_i hv
          exact wf_cons.2 ⟨fun d hd => hk ▸ hlt d hd, hv, hm'⟩
      · rename_i h1 h2
        refine wf_cons.2 ⟨fun d hd => ?_, hu, ih hm'⟩
        rcases mem_write hd with hd | rfl
        · exact hlt d hd
        · simp only
          omega

/-- No two cells with offsets below 256 share a key. -/
theorem cellKey_inj {k o k' o' : Nat} (ho : o < 256) (ho' : o' < 256) :
    cellKey k o = cellKey k' o' ↔ k = k' ∧ o = o' := by
  simp only [cellKey]
  omega

end Sys2Proof.Machine
end

