-- ==== Sys2Proof/Laws/PerInstr.lean ====
section
/-! SUPPORT. A law per operation: the word the encoder gives fits the operation's row of opcode_table.json. -/

namespace Sys2Proof.Laws.WordFormat

/-- An X word fits a row given by its match and mask. -/
def fitsX (mask pattern : Nat) : Input → Prop
  | .rx x  => x.toNat &&& mask = pattern
  | .cmd _ => False
  | .reset => False

/-- A C word carries the row's operation code in its top byte. -/
def hasOp (op : Nat) : Input → Prop
  | .rx _  => False
  | .cmd c => c.toNat / 2 ^ 64 = op
  | .reset => False

/-- An X word has an error flag set: RXERR's row, the one without a mask. -/
def hasErrorFlag : Input → Prop
  | .rx x  => x.toNat / 256 ≠ 0
  | .cmd _ => False
  | .reset => False

/-- The row of the opcode table, at the table's wire constants. -/
def row : Instr → Input → Prop
  | .rxerr _ _     => hasErrorFlag
  | .rxstart       => fitsX 0xFFF 0x055
  | .rxskip _      => fitsX 0xF00 0x000
  | .rxesc0        => fitsX 0xFFF 0x000
  | .rxesc1        => fitsX 0xFFF 0x001
  | .rxescbad _    => fitsX 0xF00 0x000
  | .rxesc         => fitsX 0xFFF 0x054
  | .rxlit _       => fitsX 0xF00 0x000
  | .nop           => hasOp 0x00
  | .poll          => hasOp 0x01
  | .rdbyte _      => hasOp 0x02
  | .release       => hasOp 0x03
  | .setaddr _     => hasOp 0x04
  | .calw _ _      => hasOp 0x10
  | .calr _        => hasOp 0x11
  | .correct _ _ _ => hasOp 0x12
  | .qadd _ _      => hasOp 0x20
  | .qsub _ _      => hasOp 0x21
  | .qmul _ _      => hasOp 0x22
  | .qdiv _ _      => hasOp 0x23
  | .qcmp _ _      => hasOp 0x24
  | .qmin _ _      => hasOp 0x25
  | .qmax _ _      => hasOp 0x26

/-- The encoded word of a well-formed operation fits its row. -/
def Statement (i : Instr) : Prop := i.wf Wire.vl = true → row i (encode Wire.vl i)

theorem hasOp_cWord (op : Byte) (a b : Word) : hasOp op.toNat (.cmd (cWord op a b)) := by
  have h := opField_toNat (cWord op a b)
  rw [opField_cWord] at h
  exact h.symm

theorem fitsX_xByte (d : Byte) : fitsX 0xF00 0x000 (.rx (xByte d)) := by
  have h : ∀ d : Byte, (xByte d).toNat &&& 0xF00 = 0 := by decide
  exact h d

theorem rxerr (flags : BitVec 4) (data : Byte) : Statement (.rxerr flags data) := by
  intro h
  have hx := xFlags_toNat (flags ++ data)
  rw [xFlags_append] at hx
  have hf : flags ≠ 0 := by simpa [Instr.wf] using h
  intro h0
  exact hf (BitVec.eq_of_toNat_eq (hx.trans h0))

theorem rxstart : Statement .rxstart := fun _ => (by decide : (xByte 0x55).toNat &&& 0xFFF = 0x055)
theorem rxskip (data : Byte) : Statement (.rxskip data) := fun _ => fitsX_xByte data
theorem rxesc0 : Statement .rxesc0 := fun _ => (by decide : (xByte 0x00).toNat &&& 0xFFF = 0x000)
theorem rxesc1 : Statement .rxesc1 := fun _ => (by decide : (xByte 0x01).toNat &&& 0xFFF = 0x001)
theorem rxescbad (data : Byte) : Statement (.rxescbad data) := fun _ => fitsX_xByte data
theorem rxesc : Statement .rxesc := fun _ => (by decide : (xByte 0x54).toNat &&& 0xFFF = 0x054)
theorem rxlit (data : Byte) : Statement (.rxlit data) := fun _ => fitsX_xByte data
theorem nop : Statement .nop := fun _ => hasOp_cWord 0x00 _ _
theorem poll : Statement .poll := fun _ => hasOp_cWord 0x01 _ _
theorem rdbyte (offset : Byte) : Statement (.rdbyte offset) := fun _ => hasOp_cWord 0x02 _ _
theorem release : Statement .release := fun _ => hasOp_cWord 0x03 _ _
theorem setaddr (addr : Byte) : Statement (.setaddr addr) := fun _ => hasOp_cWord 0x04 _ _
theorem calw (index : BitVec 4) (value : Word) : Statement (.calw index value) := fun _ => hasOp_cWord 0x10 _ _
theorem calr (index : BitVec 4) : Statement (.calr index) := fun _ => hasOp_cWord 0x11 _ _
theorem correct (x y lum : Half) : Statement (.correct x y lum) := fun _ => hasOp_cWord 0x12 _ _
theorem qadd (a b : Word) : Statement (.qadd a b) := fun _ => hasOp_cWord 0x20 _ _
theorem qsub (a b : Word) : Statement (.qsub a b) := fun _ => hasOp_cWord 0x21 _ _
theorem qmul (a b : Word) : Statement (.qmul a b) := fun _ => hasOp_cWord 0x22 _ _
theorem qdiv (a b : Word) : Statement (.qdiv a b) := fun _ => hasOp_cWord 0x23 _ _
theorem qcmp (a b : Word) : Statement (.qcmp a b) := fun _ => hasOp_cWord 0x24 _ _
theorem qmin (a b : Word) : Statement (.qmin a b) := fun _ => hasOp_cWord 0x25 _ _
theorem qmax (a b : Word) : Statement (.qmax a b) := fun _ => hasOp_cWord 0x26 _ _

end Sys2Proof.Laws.WordFormat
end

