-- ==== Sys2Proof/Laws/State.lean ====
section
/-! SUPPORT. One lemma per field per named update of the state, so that no proof unfolds a record update. -/

namespace Sys2Proof.Machine

/-! ### `respond` -/

@[simp] theorem respond_cfg (s : State) (x : Status) (r0 r1 : Word) (fl : Byte) : (s.respond x r0 r1 fl).cfg = s.cfg := rfl
@[simp] theorem respond_st (s : State) (x : Status) (r0 r1 : Word) (fl : Byte) : (s.respond x r0 r1 fl).st = s.st := rfl
@[simp] theorem respond_esc (s : State) (x : Status) (r0 r1 : Word) (fl : Byte) : (s.respond x r0 r1 fl).esc = s.esc := rfl
@[simp] theorem respond_pos (s : State) (x : Status) (r0 r1 : Word) (fl : Byte) : (s.respond x r0 r1 fl).pos = s.pos := rfl
@[simp] theorem respond_explen (s : State) (x : Status) (r0 r1 : Word) (fl : Byte) : (s.respond x r0 r1 fl).explen = s.explen := rfl
@[simp] theorem respond_sten (s : State) (x : Status) (r0 r1 : Word) (fl : Byte) : (s.respond x r0 r1 fl).sten = s.sten := rfl
@[simp] theorem respond_wr (s : State) (x : Status) (r0 r1 : Word) (fl : Byte) : (s.respond x r0 r1 fl).wr = s.wr := rfl
@[simp] theorem respond_rd (s : State) (x : Status) (r0 r1 : Word) (fl : Byte) : (s.respond x r0 r1 fl).rd = s.rd := rfl
@[simp] theorem respond_pending (s : State) (x : Status) (r0 r1 : Word) (fl : Byte) : (s.respond x r0 r1 fl).pending = s.pending := rfl
@[simp] theorem respond_flen (s : State) (x : Status) (r0 r1 : Word) (fl : Byte) : (s.respond x r0 r1 fl).flen = s.flen := rfl
@[simp] theorem respond_buf (s : State) (x : Status) (r0 r1 : Word) (fl : Byte) : (s.respond x r0 r1 fl).buf = s.buf := rfl
@[simp] theorem respond_ovf (s : State) (x : Status) (r0 r1 : Word) (fl : Byte) : (s.respond x r0 r1 fl).ovf = s.ovf := rfl
@[simp] theorem respond_fwin (s : State) (x : Status) (r0 r1 : Word) (fl : Byte) : (s.respond x r0 r1 fl).fwin = s.fwin := rfl
@[simp] theorem respond_fatal (s : State) (x : Status) (r0 r1 : Word) (fl : Byte) : (s.respond x r0 r1 fl).fatal = s.fatal := rfl
@[simp] theorem respond_myaddr (s : State) (x : Status) (r0 r1 : Word) (fl : Byte) : (s.respond x r0 r1 fl).myaddr = s.myaddr := rfl
@[simp] theorem respond_cal (s : State) (x : Status) (r0 r1 : Word) (fl : Byte) : (s.respond x r0 r1 fl).cal = s.cal := rfl
@[simp] theorem respond_calv (s : State) (x : Status) (r0 r1 : Word) (fl : Byte) : (s.respond x r0 r1 fl).calv = s.calv := rfl
@[simp] theorem respond_inputs (s : State) (x : Status) (r0 r1 : Word) (fl : Byte) : (s.respond x r0 r1 fl).inputs = s.inputs := rfl
@[simp] theorem respond_responses (s : State) (x : Status) (r0 r1 : Word) (fl : Byte) : (s.respond x r0 r1 fl).responses = s.responses ++ [responseWord x fl r0 r1] := rfl

/-! ### `abortFrame` -/

@[simp] theorem abortFrame_cfg (s : State) : (s.abortFrame).cfg = s.cfg := rfl
@[simp] theorem abortFrame_st (s : State) : (s.abortFrame).st = .idle := rfl
@[simp] theorem abortFrame_esc (s : State) : (s.abortFrame).esc = false := rfl
@[simp] theorem abortFrame_pos (s : State) : (s.abortFrame).pos = s.pos := rfl
@[simp] theorem abortFrame_explen (s : State) : (s.abortFrame).explen = s.explen := rfl
@[simp] theorem abortFrame_sten (s : State) : (s.abortFrame).sten = s.sten := rfl
@[simp] theorem abortFrame_wr (s : State) : (s.abortFrame).wr = s.wr := rfl
@[simp] theorem abortFrame_rd (s : State) : (s.abortFrame).rd = s.rd := rfl
@[simp] theorem abortFrame_pending (s : State) : (s.abortFrame).pending = s.pending := rfl
@[simp] theorem abortFrame_flen (s : State) : (s.abortFrame).flen = s.flen := rfl
@[simp] theorem abortFrame_buf (s : State) : (s.abortFrame).buf = s.buf := rfl
@[simp] theorem abortFrame_ovf (s : State) : (s.abortFrame).ovf = s.ovf := rfl
@[simp] theorem abortFrame_fwin (s : State) : (s.abortFrame).fwin = s.fwin := rfl
@[simp] theorem abortFrame_fatal (s : State) : (s.abortFrame).fatal = s.fatal := rfl
@[simp] theorem abortFrame_myaddr (s : State) : (s.abortFrame).myaddr = s.myaddr := rfl
@[simp] theorem abortFrame_cal (s : State) : (s.abortFrame).cal = s.cal := rfl
@[simp] theorem abortFrame_calv (s : State) : (s.abortFrame).calv = s.calv := rfl
@[simp] theorem abortFrame_inputs (s : State) : (s.abortFrame).inputs = s.inputs := rfl
@[simp] theorem abortFrame_responses (s : State) : (s.abortFrame).responses = s.responses := rfl

/-! ### `recordEvent` -/

@[simp] theorem recordEvent_cfg (s : State) (f : Bool) : (s.recordEvent f).cfg = s.cfg := rfl
@[simp] theorem recordEvent_st (s : State) (f : Bool) : (s.recordEvent f).st = s.st := rfl
@[simp] theorem recordEvent_esc (s : State) (f : Bool) : (s.recordEvent f).esc = s.esc := rfl
@[simp] theorem recordEvent_pos (s : State) (f : Bool) : (s.recordEvent f).pos = s.pos := rfl
@[simp] theorem recordEvent_explen (s : State) (f : Bool) : (s.recordEvent f).explen = s.explen := rfl
@[simp] theorem recordEvent_sten (s : State) (f : Bool) : (s.recordEvent f).sten = s.sten := rfl
@[simp] theorem recordEvent_wr (s : State) (f : Bool) : (s.recordEvent f).wr = s.wr := rfl
@[simp] theorem recordEvent_rd (s : State) (f : Bool) : (s.recordEvent f).rd = s.rd := rfl
@[simp] theorem recordEvent_pending (s : State) (f : Bool) : (s.recordEvent f).pending = s.pending := rfl
@[simp] theorem recordEvent_flen (s : State) (f : Bool) : (s.recordEvent f).flen = s.flen := rfl
@[simp] theorem recordEvent_buf (s : State) (f : Bool) : (s.recordEvent f).buf = s.buf := rfl
@[simp] theorem recordEvent_ovf (s : State) (f : Bool) : (s.recordEvent f).ovf = s.ovf := rfl
@[simp] theorem recordEvent_fwin (s : State) (f : Bool) : (s.recordEvent f).fwin = shiftWindow s.cfg.failWindow s.fwin f := rfl
@[simp] theorem recordEvent_fatal (s : State) (f : Bool) : (s.recordEvent f).fatal = (s.fatal || decide (popcount (shiftWindow s.cfg.failWindow s.fwin f) > s.cfg.failThreshold)) := rfl
@[simp] theorem recordEvent_myaddr (s : State) (f : Bool) : (s.recordEvent f).myaddr = s.myaddr := rfl
@[simp] theorem recordEvent_cal (s : State) (f : Bool) : (s.recordEvent f).cal = s.cal := rfl
@[simp] theorem recordEvent_calv (s : State) (f : Bool) : (s.recordEvent f).calv = s.calv := rfl
@[simp] theorem recordEvent_inputs (s : State) (f : Bool) : (s.recordEvent f).inputs = s.inputs := rfl
@[simp] theorem recordEvent_responses (s : State) (f : Bool) : (s.recordEvent f).responses = s.responses := rfl

/-! ### `goFatal` -/

@[simp] theorem goFatal_cfg (s : State) : (s.goFatal).cfg = s.cfg := rfl
@[simp] theorem goFatal_st (s : State) : (s.goFatal).st = s.st := rfl
@[simp] theorem goFatal_esc (s : State) : (s.goFatal).esc = s.esc := rfl
@[simp] theorem goFatal_pos (s : State) : (s.goFatal).pos = s.pos := rfl
@[simp] theorem goFatal_explen (s : State) : (s.goFatal).explen = s.explen := rfl
@[simp] theorem goFatal_sten (s : State) : (s.goFatal).sten = s.sten := rfl
@[simp] theorem goFatal_wr (s : State) : (s.goFatal).wr = s.wr := rfl
@[simp] theorem goFatal_rd (s : State) : (s.goFatal).rd = s.rd := rfl
@[simp] theorem goFatal_pending (s : State) : (s.goFatal).pending = s.pending := rfl
@[simp] theorem goFatal_flen (s : State) : (s.goFatal).flen = s.flen := rfl
@[simp] theorem goFatal_buf (s : State) : (s.goFatal).buf = s.buf := rfl
@[simp] theorem goFatal_ovf (s : State) : (s.goFatal).ovf = s.ovf := rfl
@[simp] theorem goFatal_fwin (s : State) : (s.goFatal).fwin = s.fwin := rfl
@[simp] theorem goFatal_fatal (s : State) : (s.goFatal).fatal = true := rfl
@[simp] theorem goFatal_myaddr (s : State) : (s.goFatal).myaddr = s.myaddr := rfl
@[simp] theorem goFatal_cal (s : State) : (s.goFatal).cal = s.cal := rfl
@[simp] theorem goFatal_calv (s : State) : (s.goFatal).calv = s.calv := rfl
@[simp] theorem goFatal_inputs (s : State) : (s.goFatal).inputs = s.inputs := rfl
@[simp] theorem goFatal_responses (s : State) : (s.goFatal).responses = s.responses := rfl

/-! ### `writeCal` -/

@[simp] theorem writeCal_cfg (s : State) (i : Nat) (v : Word) : (s.writeCal i v).cfg = s.cfg := rfl
@[simp] theorem writeCal_st (s : State) (i : Nat) (v : Word) : (s.writeCal i v).st = s.st := rfl
@[simp] theorem writeCal_esc (s : State) (i : Nat) (v : Word) : (s.writeCal i v).esc = s.esc := rfl
@[simp] theorem writeCal_pos (s : State) (i : Nat) (v : Word) : (s.writeCal i v).pos = s.pos := rfl
@[simp] theorem writeCal_explen (s : State) (i : Nat) (v : Word) : (s.writeCal i v).explen = s.explen := rfl
@[simp] theorem writeCal_sten (s : State) (i : Nat) (v : Word) : (s.writeCal i v).sten = s.sten := rfl
@[simp] theorem writeCal_wr (s : State) (i : Nat) (v : Word) : (s.writeCal i v).wr = s.wr := rfl
@[simp] theorem writeCal_rd (s : State) (i : Nat) (v : Word) : (s.writeCal i v).rd = s.rd := rfl
@[simp] theorem writeCal_pending (s : State) (i : Nat) (v : Word) : (s.writeCal i v).pending = s.pending := rfl
@[simp] theorem writeCal_flen (s : State) (i : Nat) (v : Word) : (s.writeCal i v).flen = s.flen := rfl
@[simp] theorem writeCal_buf (s : State) (i : Nat) (v : Word) : (s.writeCal i v).buf = s.buf := rfl
@[simp] theorem writeCal_ovf (s : State) (i : Nat) (v : Word) : (s.writeCal i v).ovf = s.ovf := rfl
@[simp] theorem writeCal_fwin (s : State) (i : Nat) (v : Word) : (s.writeCal i v).fwin = s.fwin := rfl
@[simp] theorem writeCal_fatal (s : State) (i : Nat) (v : Word) : (s.writeCal i v).fatal = s.fatal := rfl
@[simp] theorem writeCal_myaddr (s : State) (i : Nat) (v : Word) : (s.writeCal i v).myaddr = s.myaddr := rfl
@[simp] theorem writeCal_cal (s : State) (i : Nat) (v : Word) : (s.writeCal i v).cal = s.cal.setIfInBounds i v := rfl
@[simp] theorem writeCal_calv (s : State) (i : Nat) (v : Word) : (s.writeCal i v).calv = s.calv ||| (1#12 <<< i) := rfl
@[simp] theorem writeCal_inputs (s : State) (i : Nat) (v : Word) : (s.writeCal i v).inputs = s.inputs := rfl
@[simp] theorem writeCal_responses (s : State) (i : Nat) (v : Word) : (s.writeCal i v).responses = s.responses := rfl

/-! ### `takeReset` -/

@[simp] theorem takeReset_cfg (s : State) : (s.takeReset).cfg = s.cfg := rfl
@[simp] theorem takeReset_st (s : State) : (s.takeReset).st = (State.resetOf s.cfg).st := rfl
@[simp] theorem takeReset_esc (s : State) : (s.takeReset).esc = (State.resetOf s.cfg).esc := rfl
@[simp] theorem takeReset_pos (s : State) : (s.takeReset).pos = (State.resetOf s.cfg).pos := rfl
@[simp] theorem takeReset_explen (s : State) : (s.takeReset).explen = (State.resetOf s.cfg).explen := rfl
@[simp] theorem takeReset_sten (s : State) : (s.takeReset).sten = (State.resetOf s.cfg).sten := rfl
@[simp] theorem takeReset_wr (s : State) : (s.takeReset).wr = (State.resetOf s.cfg).wr := rfl
@[simp] theorem takeReset_rd (s : State) : (s.takeReset).rd = (State.resetOf s.cfg).rd := rfl
@[simp] theorem takeReset_pending (s : State) : (s.takeReset).pending = (State.resetOf s.cfg).pending := rfl
@[simp] theorem takeReset_flen (s : State) : (s.takeReset).flen = (State.resetOf s.cfg).flen := rfl
@[simp] theorem takeReset_buf (s : State) : (s.takeReset).buf = (State.resetOf s.cfg).buf := rfl
@[simp] theorem takeReset_ovf (s : State) : (s.takeReset).ovf = (State.resetOf s.cfg).ovf := rfl
@[simp] theorem takeReset_fwin (s : State) : (s.takeReset).fwin = (State.resetOf s.cfg).fwin := rfl
@[simp] theorem takeReset_fatal (s : State) : (s.takeReset).fatal = (State.resetOf s.cfg).fatal := rfl
@[simp] theorem takeReset_myaddr (s : State) : (s.takeReset).myaddr = (State.resetOf s.cfg).myaddr := rfl
@[simp] theorem takeReset_cal (s : State) : (s.takeReset).cal = (State.resetOf s.cfg).cal := rfl
@[simp] theorem takeReset_calv (s : State) : (s.takeReset).calv = (State.resetOf s.cfg).calv := rfl
@[simp] theorem takeReset_inputs (s : State) : (s.takeReset).inputs = s.inputs := rfl
@[simp] theorem takeReset_responses (s : State) : (s.takeReset).responses = s.responses := rfl

end Sys2Proof.Machine
end

