-- ==== Sys2Proof/Laws/Receive.lean ====
section
/-! SUPPORT. What the shared receive operations can do, said once: the frame of R139, the window, the store, completion
and content bytes; and what the invariants give them. -/

namespace Sys2Proof.Machine

/-! ### The window -/

theorem popcount_eq_count (l : List Bool) : popcount l = l.count true := by
  induction l with
  | nil => rfl
  | cons b l ih => cases b <;> simp [popcount, ih]

theorem shiftWindow_length {w : Nat} {l : List Bool} (h : l.length = w) (f : Bool) : (shiftWindow w l f).length = w := by
  simp [shiftWindow, h]

/-- A clean event never raises the count (R241: "can newly exceed T only in a step with f = 1"). -/
theorem popcount_shift_clean (w : Nat) (l : List Bool) : popcount (shiftWindow w l false) ≤ popcount l := by
  simp only [popcount_eq_count, shiftWindow]
  calc ((false :: l).take w).count true ≤ (false :: l).count true := (List.take_sublist _ _).count_le _
    _ = l.count true := by simp

/-! ### The frame of a receive event -/

theorem onRx_fatal {s : State} (h : s.fatal = true) (m : State → Except Fault RxDone) : onRx m s = .next s := by
  simp [onRx, h, ignoredEvent]

theorem onRx_corrupt {s : State} (hf : s.fatal = false) (h : s.st = .corrupt) (m : State → Except Fault RxDone) :
    onRx m s = .next s.goFatal := by
  simp [onRx, hf, h, corruptEvent]

theorem onRx_live {s : State} (hf : s.fatal = false) (hc : s.st ≠ .corrupt) {m : State → Except Fault RxDone}
    {d : RxDone} (h : m s = .ok d) : onRx m s = .next (d.state.recordEvent d.failed) := by
  simp [onRx, hf, hc, h]

/-- Everything a receive operation can answer. -/
theorem onRx_cases {m : State → Except Fault RxDone} {s t : State} (h : onRx m s = .next t) :
    (s.fatal = true ∧ t = s) ∨
    (s.fatal = false ∧ s.st = .corrupt ∧ t = s.goFatal) ∨
    (s.fatal = false ∧ s.st ≠ .corrupt ∧ ∃ d, m s = .ok d ∧ t = d.state.recordEvent d.failed) := by
  unfold onRx ignoredEvent corruptEvent at h
  split at h
  · exact .inl ⟨‹_›, by injection h with h; exact h.symm⟩
  · have hf : s.fatal = false := by simpa using ‹¬ s.fatal = true›
    split at h
    · exact .inr (.inl ⟨hf, ‹_›, by injection h with h; exact h.symm⟩)
    · refine .inr (.inr ⟨hf, ‹_›, ?_⟩)
      split at h
      · cases h
      · exact ⟨_, ‹_›, by injection h with h; exact h.symm⟩

@[simp] theorem noFailure_ok (s : State) : noFailure (.ok s) = .ok { state := s, failed := false } := rfl
@[simp] theorem noFailure_error (e : Fault) : noFailure (.error e) = .error e := rfl

theorem noFailure_cases {r : Except Fault State} {d : RxDone} (h : noFailure r = .ok d) :
    ∃ t, r = .ok t ∧ d = { state := t, failed := false } := by
  cases r with
  | error e => cases h
  | ok t => exact ⟨t, rfl, by injection h with h; exact h.symm⟩

@[simp] theorem raiseFailure_eq (c : FailureCause) (s : State) :
    raiseFailure c s = .ok { state := s.abortFrame, failed := true } := rfl

/-! ### Store, completion, content -/

theorem cellExists_iff (cfg : Cfg) (k o : Nat) : cellExists cfg k o = true ↔ k < cfg.nbuf ∧ o < cfg.buflen := by
  simp [cellExists]

/-- A store inside the ring succeeds; with `sten = 0` it stores nothing. -/
theorem storeContent_eq {s : State} {o : Nat} (hk : s.wr < s.cfg.nbuf) (ho : o < s.cfg.buflen) (c : Byte) :
    s.storeContent o c =
      .ok { s with buf := if s.sten then s.buf.write (cellKey s.wr o) c else s.buf } := by
  unfold State.storeContent State.storeByte
  rw [(cellExists_iff _ _ _).2 ⟨hk, ho⟩]
  by_cases hs : s.sten = true
  · rw [if_pos hs, if_pos rfl, if_pos hs]
  · rw [if_neg hs, if_neg hs]

/-- All a store of a content byte can do. -/
theorem storeContent_cases {s t : State} {o : Nat} {c : Byte} (h : s.storeContent o c = .ok t) :
    t = s ∨ t = { s with buf := s.buf.write (cellKey s.wr o) c } := by
  unfold State.storeContent State.storeByte at h
  split at h
  · split at h
    · exact .inr (by injection h with h; exact h.symm)
    · cases h
  · exact .inl (by injection h with h; exact h.symm)

/-- Completion (R143). -/
theorem complete_eq {s : State} (h : s.wr < s.flen.length) :
    s.complete = .ok (if s.sten then
        { s with flen := s.flen.set s.wr s.explen, wr := (s.wr + 1) % s.cfg.nbuf, pending := s.pending + 1, st := .idle }
      else { s with ovf := true, st := .idle }) := by
  unfold State.complete State.writeLen
  rw [if_pos h]
  cases hs : s.sten <;> simp [nextCursor]

/-- All a completion can do. -/
theorem complete_cases {s t : State} (h : s.complete = .ok t) :
    t = { s with flen := s.flen.set s.wr s.explen, wr := (s.wr + 1) % s.cfg.nbuf, pending := s.pending + 1, st := .idle } ∨
    t = { s with ovf := true, st := .idle } := by
  unfold State.complete State.writeLen at h
  split at h
  · split at h
    · cases h
    · rename_i u hu
      split at hu
      · injection hu with hu
        injection h with h
        subst hu
        exact .inl h.symm
      · cases hu
  · exact .inr (by injection h with h; exact h.symm)

/-- What no content byte touches, in any state (R43). -/
theorem content_frame {s t : State} {c : Byte} (h : s.content c = .ok t) :
    t.cfg = s.cfg ∧ t.rd = s.rd ∧ t.myaddr = s.myaddr ∧ t.cal = s.cal ∧ t.calv = s.calv ∧ t.inputs = s.inputs ∧
    t.responses = s.responses ∧ t.fwin = s.fwin ∧ t.fatal = s.fatal ∧ t.esc = s.esc ∧
    (s.ovf = true → t.ovf = true) := by
  have done : ∀ {u v : State}, u.complete = .ok v →
      v.cfg = u.cfg ∧ v.rd = u.rd ∧ v.myaddr = u.myaddr ∧ v.cal = u.cal ∧ v.calv = u.calv ∧ v.inputs = u.inputs ∧
      v.responses = u.responses ∧ v.fwin = u.fwin ∧ v.fatal = u.fatal ∧ v.esc = u.esc ∧
      (u.ovf = true → v.ovf = true) := by
    intro u v huv
    rcases complete_cases huv with rfl | rfl <;> simp
  unfold State.content at h
  split at h
  · unfold State.firstContent at h
    simp only at h
    split at h
    · injection h with h
      subst h
      simp
    · split at h
      · cases h
      · rename_i u hu
        have hu' := storeContent_cases hu
        split at h
        · have := done h
          rcases hu' with rfl | rfl <;> simpa using this
        · injection h with h
          subst h
          rcases hu' with rfl | rfl <;> simp
  · unfold State.laterContent at h
    split at h
    · cases h
    · rename_i u hu
      have hu' := storeContent_cases hu
      simp only at h
      split at h
      · have := done h
        rcases hu' with rfl | rfl <;> simpa using this
      · injection h with h
        subst h
        rcases hu' with rfl | rfl <;> simp
  · cases h
  · cases h

/-! ### What the invariants give -/

theorem State.Inv.wr_lt {s : State} (h : s.Inv) : s.wr < s.cfg.nbuf := by
  rw [h.wrEq]
  exact Nat.mod_lt _ s.cfg.nbuf_pos

theorem State.Inv.wr_lt_flen {s : State} (h : s.Inv) : s.wr < s.flen.length := h.flenLength ▸ h.wr_lt

/-- The pending buffers lie in the ring. -/
theorem pendingBuffer_lt (s : State) (j : Nat) : s.pendingBuffer j < s.cfg.nbuf := Nat.mod_lt _ s.cfg.nbuf_pos

/-- With a buffer free, the write cursor is at none of the pending buffers (R71). -/
theorem State.Inv.wr_not_pending {s : State} (h : s.Inv) (hp : s.pending < s.cfg.nbuf) {j : Nat} (hj : j < s.pending) :
    s.pendingBuffer j ≠ s.wr := by
  rw [h.wrEq, State.pendingBuffer]
  have hr := h.rdRange
  intro he
  have h1 : (s.rd + j) % s.cfg.nbuf = if s.rd + j < s.cfg.nbuf then s.rd + j else s.rd + j - s.cfg.nbuf := by
    split
    · exact Nat.mod_eq_of_lt ‹_›
    · rw [Nat.mod_eq_sub_mod (by omega), Nat.mod_eq_of_lt (by omega)]
  have h2 : (s.rd + s.pending) % s.cfg.nbuf =
      if s.rd + s.pending < s.cfg.nbuf then s.rd + s.pending else s.rd + s.pending - s.cfg.nbuf := by
    split
    · exact Nat.mod_eq_of_lt ‹_›
    · rw [Nat.mod_eq_sub_mod (by omega), Nat.mod_eq_of_lt (by omega)]
  rw [h1, h2] at he
  split at he <;> split at he <;> omega

/-- Under the invariants `flen[rd]` can be read. -/
theorem State.Inv.readLen_rd {s : State} (h : s.Inv) : s.readLen s.rd = .ok (s.lenAt s.rd) := by
  have hr : s.rd < s.flen.length := h.flenLength ▸ h.rdRange
  simp [State.readLen, State.lenAt, hr]

/-- The oldest pending buffer is the one at the read cursor. -/
theorem State.Inv.pendingBuffer_zero {s : State} (h : s.Inv) : s.pendingBuffer 0 = s.rd := by
  simp [State.pendingBuffer, Nat.mod_eq_of_lt h.rdRange]

/-- POLL's length under the invariants. -/
theorem State.Inv.headLen_eq {s : State} (h : s.Inv) :
    s.headLen = .ok (if s.pending > 0 then s.lenAt s.rd else 0) := by
  unfold State.headLen
  split
  · exact h.readLen_rd
  · rfl

/-- The first content byte under the invariants: the state it leaves, in one expression (R141, R143). -/
theorem firstContent_eq {s : State} (h : s.Inv) (c : Byte) :
    s.firstContent c = .ok (
      let len := lenOf s.cfg c s.myaddr
      let sten := decide (s.pending < s.cfg.nbuf)
      if len = 0 then { s with st := .idle }
      else
        let t : State := { s with
          sten := sten, explen := BitVec.ofNat 8 len, pos := 1,
          buf := if sten then s.buf.write (cellKey s.wr 0) c else s.buf }
        if len = 1 then
          if sten then
            { t with flen := t.flen.set t.wr t.explen, wr := (t.wr + 1) % t.cfg.nbuf, pending := t.pending + 1, st := .idle }
          else { t with ovf := true, st := .idle }
        else { t with st := .reading }) := by
  have hb := s.cfg.buflen_ge
  unfold State.firstContent
  simp only
  split
  · rfl
  · rw [storeContent_eq (o := 0) (by exact h.wr_lt) (by simp only; omega)]
    simp only
    split
    · rw [complete_eq (by exact h.wr_lt_flen)]
    · rfl

/-- A later content byte under the invariants (R142, R143). -/
theorem laterContent_eq {s : State} (h : s.Inv) (hr : s.st = .reading) (c : Byte) :
    s.laterContent c = .ok (
      let t : State := { s with
        pos := s.pos + 1,
        buf := if s.sten then s.buf.write (cellKey s.wr s.pos.toNat) c else s.buf }
      if t.pos = t.explen then
        if t.sten then
          { t with flen := t.flen.set t.wr t.explen, wr := (t.wr + 1) % t.cfg.nbuf, pending := t.pending + 1, st := .idle }
        else { t with ovf := true, st := .idle }
      else t) := by
  have hp := h.readingPos hr
  unfold State.laterContent
  rw [storeContent_eq (by exact h.wr_lt) (by omega)]
  dsimp only
  split
  · rw [complete_eq (by exact h.wr_lt_flen)]
  · rfl

/-- The next offset is the next number, and it is the frame's end exactly when the lengths agree (R142). -/
theorem State.Inv.pos_succ {s : State} (h : s.Inv) (hr : s.st = .reading) :
    (s.pos + 1).toNat = s.pos.toNat + 1 ∧ (s.pos + 1 = s.explen ↔ s.pos.toNat + 1 = s.explen.toNat) := by
  have hp := h.readingPos hr
  have hb := s.cfg.buflen_le
  have h1 : (s.pos + 1).toNat = s.pos.toNat + 1 := by
    rw [BitVec.toNat_add, show (1 : Byte).toNat = 1 from rfl]
    omega
  exact ⟨h1, by rw [BitVec.toNat_eq, h1]⟩

end Sys2Proof.Machine
end

