-- ==== Sys2Proof/Laws/Step.lean ====
section
/-! SUPPORT. Everything a step can do, said once. -/

namespace Sys2Proof.Machine

theorem step_idle {s : State} (h : s.inputs = []) : step s = .next s := by
  simp [step, State.takeInput, h, idleStep]

theorem step_reset {s : State} {rest : List Input} (h : s.inputs = .reset :: rest) :
    step s = .next (State.takeReset { s with inputs := rest }) := by
  simp [step, State.takeInput, h, decodeInput, resetInput]

/-- A receive event in a state that is fatal. -/
theorem step_rx_fatal {s : State} {x : XWord} {rest : List Input} (h : s.inputs = .rx x :: rest)
    (hf : s.fatal = true) : step s = .next { s with inputs := rest } := by
  simp [step, State.takeInput, h, decodeInput, State.rxContext, decodeRx, hf, onReject, ignoredEvent]

/-- A receive event in the corrupt decoder state. -/
theorem step_rx_corrupt {s : State} {x : XWord} {rest : List Input} (h : s.inputs = .rx x :: rest)
    (hf : s.fatal = false) (hc : s.st = .corrupt) :
    step s = .next (State.goFatal { s with inputs := rest }) := by
  simp [step, State.takeInput, h, decodeInput, State.rxContext, decodeRx, hf, hc, onReject, corruptEvent]

/-- A receive event that selects the operation `i`. -/
theorem step_rx_op {s : State} {x : XWord} {rest : List Input} {i : Instr} (h : s.inputs = .rx x :: rest)
    (hd : decodeRx s.cfg.wire s.rxContext x = .op i) : step s = exec i { s with inputs := rest } := by
  have : ({ s with inputs := rest } : State).rxContext = s.rxContext := rfl
  simp [step, State.takeInput, h, decodeInput, this, hd]

/-- A command word of the opcode map. -/
theorem step_cmd_op {s : State} {c : CWord} {rest : List Input} {i : Instr} (h : s.inputs = .cmd c :: rest)
    (hd : decodeCmd c = .op i) : step s = exec i { s with inputs := rest } := by
  simp [step, State.takeInput, h, decodeInput, hd]

/-- A command word with a reserved `op`. -/
theorem step_cmd_reserved {s : State} {c : CWord} {rest : List Input} {op : Byte} (h : s.inputs = .cmd c :: rest)
    (hd : decodeCmd c = .rejected (.reservedOp op)) :
    step s = .next (State.respond { s with inputs := rest } .wrongCommand 0 0) := by
  simp [step, State.takeInput, h, decodeInput, hd, onReject, wrongCommand]

/-- Everything a step can answer `next` with. -/
theorem step_cases {s t : State} (h : step s = .next t) :
    (s.inputs = [] ∧ t = s) ∨
    (∃ rest, s.inputs = .reset :: rest ∧ t = State.takeReset { s with inputs := rest }) ∨
    (∃ x rest, s.inputs = .rx x :: rest ∧
      ((s.fatal = true ∧ t = { s with inputs := rest }) ∨
       (s.fatal = false ∧ s.st = .corrupt ∧ t = State.goFatal { s with inputs := rest }) ∨
       (s.fatal = false ∧ s.st ≠ .corrupt ∧ ∃ i, decodeRx s.cfg.wire s.rxContext x = .op i ∧ i.isReceive = true ∧
          i.selectableIn s.rxContext = true ∧ exec i { s with inputs := rest } = .next t))) ∨
    (∃ c rest, s.inputs = .cmd c :: rest ∧
      ((∃ row ∈ opcodeMap, opField c = row.1 ∧ exec (row.2 (aField c) (bField c)) { s with inputs := rest } = .next t) ∨
       ((∀ row ∈ opcodeMap, opField c ≠ row.1) ∧ t = State.respond { s with inputs := rest } .wrongCommand 0 0))) := by
  rcases hi : s.inputs with _ | ⟨input, rest⟩
  · rw [step_idle hi] at h
    exact .inl ⟨rfl, by injection h with h; exact h.symm⟩
  · rcases input with x | c | _
    · refine .inr (.inr (.inl ⟨x, rest, rfl, ?_⟩))
      by_cases hf : s.fatal = true
      · rw [step_rx_fatal hi hf] at h
        exact .inl ⟨hf, by injection h with h; exact h.symm⟩
      · have hf : s.fatal = false := by simpa using hf
        by_cases hc : s.st = .corrupt
        · rw [step_rx_corrupt hi hf hc] at h
          exact .inr (.inl ⟨hf, hc, by injection h with h; exact h.symm⟩)
        · obtain ⟨i, hd, hr, _, hsel⟩ := decodeRx_live (w := s.cfg.wire) (c := s.rxContext) hf hc x
          rw [step_rx_op hi hd] at h
          exact .inr (.inr ⟨hf, hc, i, hd, hr, hsel, h⟩)
    · refine .inr (.inr (.inr ⟨c, rest, rfl, ?_⟩))
      rcases decodeCmd_cases c with ⟨row, hm, he, hd⟩ | ⟨hn, hd⟩
      · rw [step_cmd_op hi hd] at h
        exact .inl ⟨row, hm, he, h⟩
      · rw [step_cmd_reserved hi hd] at h
        exact .inr ⟨hn, by injection h with h; exact h.symm⟩
    · rw [step_reset hi] at h
      exact .inr (.inl ⟨rest, rfl, by injection h with h; exact h.symm⟩)

end Sys2Proof.Machine
end

