-- ==== Sys2Proof/Tests/Slice0.lean ====
section
/-! SUPPORT. Tests: ill-formed terms and illegal configurations are refused; words written out from the encodings
decode to their operations; one step of each operation against the example of its rule; a witness for the hypotheses of
each obligation that has some. -/

namespace Sys2Proof.Tests

open Sys2Proof.Machine Sys2Proof.Claims

/-! ### Well-formedness -/

theorem test_wf_refuses_rxerr_without_flag : (Instr.rxerr 0 0x41).wf Wire.vl = false := by decide
theorem test_wf_refuses_rxskip_of_start_mark : (Instr.rxskip 0x55).wf Wire.vl = false := by decide
theorem test_wf_refuses_rxescbad_of_code0 : (Instr.rxescbad 0x00).wf Wire.vl = false := by decide
theorem test_wf_refuses_rxescbad_of_code1 : (Instr.rxescbad 0x01).wf Wire.vl = false := by decide
theorem test_wf_refuses_rxescbad_of_start_mark : (Instr.rxescbad 0x55).wf Wire.vl = false := by decide
theorem test_wf_refuses_rxlit_of_start_mark : (Instr.rxlit 0x55).wf Wire.vl = false := by decide
theorem test_wf_refuses_rxlit_of_escape_mark : (Instr.rxlit 0x54).wf Wire.vl = false := by decide
theorem test_wf_accepts : (Instr.rxerr 1 0x55).wf Wire.vl && (Instr.rxskip 0x54).wf Wire.vl &&
    (Instr.rxescbad 0x54).wf Wire.vl && (Instr.rxlit 0x00).wf Wire.vl = true := by decide

/-! ### Configurations (R6): one field out of range each -/

/-- TC1 with a change. -/
def tc1With (f : CfgFields → CfgFields) : Bool := (Cfg.ofFields? (f Cfg.tc1.toCfgFields)).isSome

theorem test_cfg_accepts_tc1 : tc1With id = true := by decide
theorem test_cfg_refuses_no_buffer : tc1With (fun c => { c with nbuf := 0 }) = false := by decide
theorem test_cfg_refuses_256_buffers : tc1With (fun c => { c with nbuf := 256 }) = false := by decide
theorem test_cfg_refuses_buflen_256 : tc1With (fun c => { c with buflen := 256 }) = false := by decide
theorem test_cfg_refuses_buflen_1 : tc1With (fun c => { c with buflen := 1, cmdlen := 1 }) = false := by decide
theorem test_cfg_refuses_cmdlen_1 : tc1With (fun c => { c with cmdlen := 1 }) = false := by decide
theorem test_cfg_refuses_cmdlen_above_buflen : tc1With (fun c => { c with cmdlen := 9 }) = false := by decide
theorem test_cfg_refuses_length_above_buflen :
    tc1With (fun c => { c with lenFn := .table [⟨0x10, 0x10, 9⟩] }) = false := by decide
theorem test_cfg_accepts_length_of_buflen :
    tc1With (fun c => { c with lenFn := .table [⟨0x10, 0x10, 8⟩] }) = true := by decide
theorem test_cfg_refuses_empty_window : tc1With (fun c => { c with failWindow := 0, failThreshold := 0 }) = false := by
  decide
theorem test_cfg_refuses_threshold_of_window : tc1With (fun c => { c with failThreshold := 8 }) = false := by decide
theorem test_cfg_refuses_other_outmax : tc1With (fun c => { c with outmax := 0x0FFF }) = false := by decide
theorem test_cfg_refuses_equal_marks :
    tc1With (fun c => { c with wire := { c.wire with escapeMark := 0x55 } }) = false := by decide
theorem test_cfg_refuses_code_of_start_mark :
    tc1With (fun c => { c with wire := { c.wire with escCode1 := 0x55 } }) = false := by decide

/-! ### Decoding: words of 95_test_vectors.md and of the tables of R92, R101 -/

/-- A receive-event word in a decoder state. -/
def rxIn (st : DecSt) (esc : Bool) (x : Nat) : Decoded :=
  decodeRx Wire.vl { fatal := false, st := st, esc := esc } (BitVec.ofNat 12 x)

theorem test_decode_rxerr : rxIn .idle false 0x855 = .op (.rxerr 0b1000 0x55) ∧
    rxIn .reading true 0xF00 = .op (.rxerr 0b1111 0x00) := by decide
theorem test_decode_rxstart : rxIn .idle false 0x055 = .op .rxstart ∧ rxIn .reading true 0x055 = .op .rxstart := by decide
theorem test_decode_rxskip : rxIn .idle false 0x054 = .op (.rxskip 0x54) ∧ rxIn .idle false 0 = .op (.rxskip 0) := by
  decide
theorem test_decode_rxesc0 : rxIn .gotStart true 0x000 = .op .rxesc0 ∧ rxIn .reading true 0x000 = .op .rxesc0 := by decide
theorem test_decode_rxesc1 : rxIn .gotStart true 0x001 = .op .rxesc1 ∧ rxIn .reading true 0x001 = .op .rxesc1 := by decide
theorem test_decode_rxescbad : rxIn .reading true 0x002 = .op (.rxescbad 0x02) ∧
    rxIn .gotStart true 0x054 = .op (.rxescbad 0x54) := by decide
theorem test_decode_rxesc : rxIn .gotStart false 0x054 = .op .rxesc ∧ rxIn .reading false 0x054 = .op .rxesc := by decide
theorem test_decode_rxlit : rxIn .gotStart false 0x001 = .op (.rxlit 0x01) ∧
    rxIn .reading false 0x0FE = .op (.rxlit 0xFE) := by decide
theorem test_decode_ignored_and_corrupt :
    decodeRx Wire.vl { fatal := true, st := .corrupt, esc := false } 0x855 = .rejected .fatalIgnored ∧
    decodeRx Wire.vl { fatal := false, st := .corrupt, esc := false } 0x855 = .rejected .corruptState := by decide

theorem test_decode_consumer_commands :
    decodeTableWord 72 0x00FFFFFFFFFFFFFFFF = some .nop ∧ decodeTableWord 72 0x010000000000000000 = some .poll ∧
    decodeTableWord 72 0x0200000000000000A5 = some (.rdbyte 0xA5) ∧
    decodeTableWord 72 0x030000000000000000 = some .release ∧
    decodeTableWord 72 0x04FFFFFFFFFFFFFF10 = some (.setaddr 0x10) := by decide
theorem test_decode_corrector_commands :
    decodeTableWord 72 0x10FFFFFFFBFFFE8000 = some (.calw 0xB 0xFFFE8000) ∧
    decodeTableWord 72 0x110000000400000000 = some (.calr 4) ∧
    decodeTableWord 72 0x128000400100001234 = some (.correct 0x8000 0x4001 0x1234) := by decide
theorem test_decode_fixed_point_commands :
    decodeTableWord 72 0x200001800000008000 = some (.qadd 0x00018000 0x00008000) ∧
    decodeTableWord 72 0x218000000000000001 = some (.qsub 0x80000000 0x00000001) ∧
    decodeTableWord 72 0x22FFFF800000008000 = some (.qmul 0xFFFF8000 0x00008000) ∧
    decodeTableWord 72 0x230001000000020000 = some (.qdiv 0x00010000 0x00020000) ∧
    decodeTableWord 72 0x247FFFFFFF80000000 = some (.qcmp 0x7FFFFFFF 0x80000000) ∧
    decodeTableWord 72 0x25FFFF000000010000 = some (.qmin 0xFFFF0000 0x00010000) ∧
    decodeTableWord 72 0x26FFFF000000010000 = some (.qmax 0xFFFF0000 0x00010000) := by decide
theorem test_decode_reserved : decodeTableWord 72 0x050000000000000000 = none ∧
    decodeTableWord 72 0x270000000000000000 = none ∧ decodeTableWord 72 0xFF0000000000000000 = none := by decide
theorem test_decode_receive_rows : decodeTableWord 16 0x155 = some (.rxerr 1 0x55) ∧
    decodeTableWord 16 0x055 = some .rxstart ∧ decodeTableWord 16 0x054 = some .rxesc ∧
    decodeTableWord 16 0x000 = some .rxesc0 ∧ decodeTableWord 16 0x001 = some .rxesc1 ∧
    decodeTableWord 16 0x0AA = some (.rxskip 0xAA) := by decide

/-! ### One step of each operation, from the example of its rule -/

/-- A view of the state one step leads to. -/
def after {α : Type} (s : State) (input : Input) (view : State → α) : Option α :=
  match step { s with inputs := [input] } with
  | .next t    => some (view t)
  | .fault _   => none
  | .refused _ => none

/-- `rx`, `rxe` (R116) and a command word, as numbers. -/
def rx (x : Nat) : Input := .rx (BitVec.ofNat 12 x)
def cmd (c : Nat) : Input := .cmd (BitVec.ofNat 72 c)

/-- A response by its fields. -/
def resp (status flags r0 r1 : Nat) : List RWord :=
  [BitVec.ofNat 80 (status * 2 ^ 72 + flags * 2 ^ 64 + r0 * 2 ^ 32 + r1)]

/-- TC1, in the middle of a frame of six bytes. -/
def reading (pos : Byte) (esc : Bool) : State :=
  { State.reset with st := .reading, esc := esc, pos := pos, explen := 6, sten := true, myaddr := 0x10 }

/-- TC1, after a START_MARK. -/
def started (esc : Bool) (myaddr : Byte) : State := { State.reset with st := .gotStart, esc := esc, myaddr := myaddr }

/-- TC1 with the frame `10 00 80 54 55 7F` pending (R173). -/
def onePending : State :=
  { State.reset with
    wr := 1, pending := 1, flen := [6, 0], buf := [(0, 0x10), (2, 0x80), (3, 0x54), (4, 0x55), (5, 0x7F)] }

/-- TC1 with `calident` loaded (R117). -/
def identityLoaded : State :=
  { State.reset with calv := 0xFFF, cal := #v[0x10000, 0, 0, 0, 0x10000, 0, 0, 0, 0x10000, 0x10000, 0x10000, 0x10000] }

theorem test_rxerr_aborts : after (reading 3 false) (rx 0x241) (fun t => (t.st, t.esc, t.fwin.head?)) =
    some (.idle, false, some true) := by decide
theorem test_rxerr_counts_in_idle : after State.reset (rx 0x855) (fun t => (t.st, t.fwin)) =
    some (.idle, [true, false, false, false, false, false, false, false]) := by decide
theorem test_rxstart_restarts : after (reading 4 true) (rx 0x055) (fun t => (t.st, t.esc, t.pos, t.fwin.head?)) =
    some (.gotStart, false, 0, some false) := by decide
theorem test_rxskip_ignores_escape_mark : after State.reset (rx 0x054) (fun t => (t.st, t.esc, t.fwin.head?)) =
    some (.idle, false, some false) := by decide
theorem test_rxesc_sets_esc : after (reading 2 false) (rx 0x054) (fun t => (t.st, t.esc, t.pos)) =
    some (.reading, true, 2) := by decide
theorem test_rxesc0_stores_54 : after (reading 2 true) (rx 0x000) (fun t => (t.cell 0 2, t.pos, t.esc)) =
    some (0x54, 3, false) := by decide
theorem test_rxesc1_first_byte : after (started true 0x55) (rx 0x001) (fun t => (t.cell 0 0, t.pos, t.explen, t.st)) =
    some (0x55, 1, 6, .reading) := by decide
theorem test_rxescbad_aborts : after (reading 3 true) (rx 0x002) (fun t => (t.st, t.esc, t.fwin.head?)) =
    some (.idle, false, some true) := by decide
theorem test_rxlit_stores : after (reading 1 false) (rx 0x080) (fun t => (t.cell 0 1, t.pos, t.st)) =
    some (0x80, 2, .reading) := by decide
theorem test_rxlit_completes_strobe : after (started false 0xFF) (rx 0x0FE)
    (fun t => (t.cell 0 0, t.pending, t.wr, t.flen, t.st)) = some (0xFE, 1, 1, [1, 0], .idle) := by decide
theorem test_nop : after State.reset (cmd 0) (·.responses) = some (resp 0 0 0 0) := by decide
theorem test_poll_reports_frame : after onePending (cmd 0x010000000000000000) (·.responses) =
    some (resp 0 0 0x00010601 0) := by decide
theorem test_poll_clears_overflow : after { State.reset with ovf := true } (cmd 0x010000000000000000)
    (fun t => (t.responses, t.ovf)) = some (resp 5 0 2 0, false) := by decide
theorem test_rdbyte_inside : after onePending (cmd 0x020000000000000003) (·.responses) = some (resp 0 0 0x54 0) := by decide
theorem test_rdbyte_past_the_end : after onePending (cmd 0x020000000000000006) (·.responses) = some (resp 1 0 0 0) := by
  decide
theorem test_release_advances : after { State.reset with pending := 2, rd := 1, wr := 1, flen := [6, 6] }
    (cmd 0x030000000000000000) (fun t => (t.responses, t.pending, t.rd)) = some (resp 0 0 0 0, 1, 0) := by decide
theorem test_release_empty : after State.reset (cmd 0x030000000000000000) (·.responses) = some (resp 8 0 0 0) := by decide
theorem test_setaddr : after State.reset (cmd 0x040000000000000010) (fun t => (t.responses, t.myaddr)) =
    some (resp 0 0 0 0, 0x10) := by decide
theorem test_calw : after State.reset (cmd 0x100000000400010000) (fun t => (t.responses, t.readCal 4, t.calv)) =
    some (resp 0 0 0 0, 0x10000, 0x010) := by decide
theorem test_calr_reads : after identityLoaded (cmd 0x110000000400000000) (·.responses) = some (resp 0 0 0x10000 0) := by
  decide
theorem test_calr_unwritten : after State.reset (cmd 0x110000000400000000) (·.responses) = some (resp 3 0 0 0) := by decide
theorem test_correct_identity : after identityLoaded (cmd 0x12800080000000FFFF) (·.responses) =
    some (resp 0 0 0x3FFE3FFE 0x7FFE) := by decide +kernel
theorem test_correct_unloaded : after State.reset (cmd 0x12800080000000FFFF) (·.responses) = some (resp 3 0 0 0) := by decide
theorem test_qadd_saturates : after State.reset (cmd 0x207FFF000000020000) (·.responses) =
    some (resp 0 1 0x7FFFFFFF 0) := by decide
theorem test_qsub_saturates : after State.reset (cmd 0x210000000080000000) (·.responses) =
    some (resp 0 1 0x7FFFFFFF 0) := by decide
theorem test_qmul_floors : after State.reset (cmd 0x22FFFFFFFF00000001) (·.responses) =
    some (resp 0 0 0xFFFFFFFF 0) := by decide
theorem test_qmul_saturates : after State.reset (cmd 0x228000000080000000) (·.responses) =
    some (resp 0 1 0x7FFFFFFF 0) := by decide
theorem test_qdiv_truncates : after State.reset (cmd 0x23FFFFFFFF00030000) (·.responses) = some (resp 0 0 0 0) := by decide
theorem test_qdiv_by_zero : after State.reset (cmd 0x23FFFF000000000000) (·.responses) =
    some (resp 0 3 0x80000000 0) := by decide
theorem test_qcmp_is_signed : after State.reset (cmd 0x247FFFFFFF80000000) (·.responses) = some (resp 0 0 1 0) := by decide
theorem test_qmin_is_signed : after State.reset (cmd 0x25800000007FFFFFFF) (·.responses) =
    some (resp 0 0 0x80000000 0) := by decide
theorem test_qmax_is_signed : after State.reset (cmd 0x26800000007FFFFFFF) (·.responses) =
    some (resp 0 0 0x7FFFFFFF 0) := by decide
theorem test_reserved_op : after onePending (cmd 0x05FFFFFFFFFFFFFFFF) (fun t => (t.responses, t.pending)) =
    some (resp 2 0 0 0, 1) := by decide
/-- R241's example: failure bits 1, 0, 1, 0, 0 and then one more. -/
theorem test_threshold_goes_fatal :
    after { State.reset with fwin := [false, false, true, false, true, false, false, false] } (rx 0x100)
      (fun t => (t.fwin, t.fatal)) = some ([true, false, false, true, false, true, false, false], true) := by decide
theorem test_reset_input : after { onePending with fatal := true, myaddr := 0x10 } .reset
    (fun t => (t.fatal, t.pending, t.myaddr)) = some (false, 0, 0xFF) := by decide
theorem test_fetch_word_runs_rxesc1 : (State.reset.withFetchWord 16 0x001).inputs = [rx 0x001] ∧
    (State.reset.withFetchWord 16 0x001).st = .gotStart ∧ (State.reset.withFetchWord 16 0x001).esc = true := by decide
theorem test_fetch_word_runs_poll : step (State.reset.withFetchWord 72 0x010000000000000000) =
    exec .poll State.reset := rfl

/-! ### Witnesses: states and operands that meet the hypotheses of each obligation -/

/-- The invariants as a test, for states whose memory lists nothing. -/
def invHolds (s : State) : Bool :=
  decide (s.flen.length = s.cfg.nbuf) && decide (s.fwin.length = s.cfg.failWindow) && decide (s.buf = []) &&
  decide (s.rd < s.cfg.nbuf) && decide (s.pending ≤ s.cfg.nbuf) && decide (s.wr = (s.rd + s.pending) % s.cfg.nbuf) &&
  decide (s.st ≠ .corrupt) && decide (s.st = .idle → s.esc = false) && decide (s.st = .gotStart → s.pos = 0) &&
  decide (s.st = .reading → 1 ≤ s.pos.toNat ∧ s.pos.toNat < s.explen.toNat ∧ s.explen.toNat ≤ s.cfg.buflen) &&
  decide (s.st = .reading → s.sten = true → s.pending < s.cfg.nbuf) &&
  decide (∀ j, j < s.pending →
    1 ≤ (s.lenAt (s.pendingBuffer j)).toNat ∧ (s.lenAt (s.pendingBuffer j)).toNat ≤ s.cfg.buflen) &&
  decide (s.fatal = false → popcount s.fwin ≤ s.cfg.failThreshold)

theorem inv_of_invHolds {s : State} (h : invHolds s = true) : s.Inv := by
  simp only [invHolds, Bool.and_eq_true, decide_eq_true_eq] at h
  obtain ⟨⟨⟨⟨⟨⟨⟨⟨⟨⟨⟨⟨h1, h2⟩, h3⟩, h4⟩, h5⟩, h6⟩, h7⟩, h8⟩, h9⟩, h10⟩, h11⟩, h12⟩, h13⟩ := h
  exact ⟨h1, h2, by rw [h3]; simp [Memory.wf], by intro c hc; rw [h3] at hc; simp at hc, h4, h5, h6, h7, h8, h9, h10, h11,
    h12, h13⟩

/-- The ring full: two frames of six bytes. -/
def fullRing : State := { State.reset with pending := 2, flen := [6, 6], myaddr := 0x10 }

/-- One frame of six bytes pending, its bytes all zero. -/
def oneZeroFrame : State := { State.reset with pending := 1, wr := 1, flen := [6, 0], myaddr := 0x10 }

/-- After a START_MARK with the ring full. -/
def startedFull : State := { fullRing with st := .gotStart }

/-- In a frame that is not stored (R29), at offset `pos`. -/
def readingFull (pos : Byte) : State := { fullRing with st := .reading, pos := pos, explen := 6, sten := false }

/-- The inputs to come. -/
def withInputs (s : State) (l : List Input) : State := { s with inputs := l }

theorem reset_inv : State.reset.Inv := inv_of_invHolds (by decide)
theorem started_inv : (started false 0x10).Inv := inv_of_invHolds (by decide)
theorem startedFull_inv : startedFull.Inv := inv_of_invHolds (by decide)
theorem fullRing_inv : fullRing.Inv := inv_of_invHolds (by decide)
theorem oneZeroFrame_inv : oneZeroFrame.Inv := inv_of_invHolds (by decide)
theorem reading_first_inv : (reading 1 false).Inv := inv_of_invHolds (by decide)
theorem reading_last_inv : (reading 5 true).Inv := inv_of_invHolds (by decide)
theorem readingFull_first_inv : (readingFull 1).Inv := inv_of_invHolds (by decide)
theorem readingFull_last_inv : (readingFull 5).Inv := inv_of_invHolds (by decide)
theorem fatal_inv : State.Inv { oneZeroFrame with fatal := true, ovf := true } := inv_of_invHolds (by decide)

theorem witness_ReceiveWordSelectsFirstApplicableLine :
    let c (f : Bool) (st : DecSt) (esc : Bool) : RxContext := { fatal := f, st := st, esc := esc }
    (c true .corrupt false).fatal = true ∧ ((c false .corrupt false).fatal = false ∧ (c false .corrupt false).st = .corrupt) ∧
    ((c false .idle false).st ≠ .corrupt ∧ (0x100 : XWord).toNat / 256 ≠ 0) ∧ (0x0FF : XWord).toNat / 256 = 0 ∧
    xData 0x055 = Wire.vl.startMark ∧ (xData 0x056 ≠ Wire.vl.startMark ∧ (c false .idle false).st = .idle) ∧
    ((c false .gotStart true).st ≠ .idle ∧ (c false .gotStart true).esc = true ∧ xData 0x000 = Wire.vl.escCode0 ∧
      xData 0x001 ≠ Wire.vl.escCode0 ∧ xData 0x001 = Wire.vl.escCode1 ∧ xData 0x002 ≠ Wire.vl.escCode1) ∧
    ((c false .reading false).esc = false ∧ xData 0x054 = Wire.vl.escapeMark ∧ xData 0x053 ≠ Wire.vl.escapeMark) := by
  decide

/-- Each operation code, with the other bits 0, and the reserved neighbours of the three groups. -/
theorem witness_CommandWordDecodesByOpcodeMap :
    (∀ op ∈ opcodes, opNat (BitVec.ofNat 72 (op * 2 ^ 64)) = op) ∧
    ∀ op ∈ [0x05, 0x0F, 0x13, 0x1F, 0x27, 0xFF], opNat (BitVec.ofNat 72 (op * 2 ^ 64)) ∉ opcodes := by decide

theorem witness_EncodeThenDecodeIsIdentity :
    Wire.vl.legal = true ∧
    ((Instr.rxerr 0xF 0xFF).wf Wire.vl = true ∧ (Instr.rxerr 0xF 0xFF).selectableIn ⟨false, .idle, false⟩ = true) ∧
    Instr.rxstart.selectableIn ⟨false, .reading, true⟩ = true ∧
    ((Instr.rxskip 0x54).wf Wire.vl = true ∧ (Instr.rxskip 0x54).selectableIn ⟨false, .idle, false⟩ = true) ∧
    Instr.rxesc0.selectableIn ⟨false, .gotStart, true⟩ = true ∧ Instr.rxesc1.selectableIn ⟨false, .reading, true⟩ = true ∧
    ((Instr.rxescbad 0x54).wf Wire.vl = true ∧ (Instr.rxescbad 0x54).selectableIn ⟨false, .gotStart, true⟩ = true) ∧
    Instr.rxesc.selectableIn ⟨false, .gotStart, false⟩ = true ∧
    ((Instr.rxlit 0x00).wf Wire.vl = true ∧ (Instr.rxlit 0x00).selectableIn ⟨false, .reading, false⟩ = true) ∧
    ((Instr.calw 15 0xFFFFFFFF).wf Wire.vl = true ∧ (Instr.calw 15 0xFFFFFFFF).selectableIn ⟨true, .corrupt, true⟩ = true) := by
  decide

theorem witness_DecodedOperationIsWellFormed :
    decodeInput Wire.vl ⟨false, .reading, false⟩ (rx 0x080) = .op (.rxlit 0x80) ∧
    decodeInput Wire.vl ⟨true, .corrupt, true⟩ (cmd 0x0200000000000000FF) = .op (.rdbyte 0xFF) := by decide

theorem witness_StepRunsDecodedOperation :
    (withInputs State.reset [cmd 0, rx 0x055]).inputs = cmd 0 :: [rx 0x055] ∧
    decodeInput State.reset.cfg.wire ⟨State.reset.fatal, State.reset.st, State.reset.esc⟩ (cmd 0) = .op .nop := by decide

theorem witness_ReservedOpAnswersWrongCommand :
    (withInputs State.reset [cmd 0x05FFFFFFFFFFFFFFFF]).inputs = [cmd 0x05FFFFFFFFFFFFFFFF] ∧
    opNat (BitVec.ofNat 72 0x05FFFFFFFFFFFFFFFF) ∉ opcodes ∧ opNat (BitVec.ofNat 72 0x04FFFFFFFFFFFFFFFF) ∈ opcodes := by
  decide

theorem witness_FailureEventAbortsFrame :
    (State.reset.fatal = false ∧ State.reset.st ≠ .corrupt) ∧
    (Receiving (withInputs State.reset [rx 0x100]) 0x100 [] ∧ ¬ errorFree 0x100) ∧
    (Receiving (withInputs (reading 3 true) [rx 0x054]) 0x054 [] ∧ errorFree 0x054 ∧ (reading 3 true).st ≠ .idle ∧
      (reading 3 true).esc = true ∧ xData 0x054 ≠ Wire.vl.escCode0 ∧ xData 0x054 ≠ Wire.vl.escCode1 ∧
      xData 0x054 ≠ Wire.vl.startMark) := by
  refine ⟨by decide, ⟨⟨rfl, rfl, by decide⟩, by unfold errorFree; decide⟩, ⟨rfl, rfl, by decide⟩, by unfold errorFree; decide, by decide⟩

theorem witness_StartMarkRestartsDecoder :
    Receiving (withInputs (reading 5 true) [rx 0x055]) 0x055 [] ∧ errorFree 0x055 ∧
    xData 0x055 = (reading 5 true).cfg.wire.startMark := ⟨⟨rfl, rfl, by decide⟩, by unfold errorFree; decide, by decide⟩

theorem witness_SkippedByteOnlyAgesWindow :
    Receiving (withInputs State.reset [rx 0x054]) 0x054 [] ∧ errorFree 0x054 ∧
    xData 0x054 ≠ State.reset.cfg.wire.startMark ∧ State.reset.st = .idle :=
  ⟨⟨rfl, rfl, by decide⟩, by unfold errorFree; decide, by decide⟩

theorem witness_EscapeMarkSetsEsc :
    Receiving (withInputs (started false 0x10) [rx 0x054]) 0x054 [] ∧ errorFree 0x054 ∧
    xData 0x054 = (started false 0x10).cfg.wire.escapeMark ∧ (started false 0x10).st ≠ .idle ∧
    (started false 0x10).esc = false := ⟨⟨rfl, rfl, by decide⟩, by unfold errorFree; decide, by decide⟩

theorem witness_EscapeCodesStandForLiterals :
    (Receiving (withInputs (reading 5 true) [rx 0x000]) 0x000 [] ∧ errorFree 0x000 ∧ (reading 5 true).st ≠ .idle ∧
      (reading 5 true).esc = true ∧ xData 0x000 = Wire.vl.escCode0) ∧
    (Receiving (withInputs (started true 0x10) [rx 0x001]) 0x001 [] ∧ errorFree 0x001 ∧ (started true 0x10).st ≠ .idle ∧
      xData 0x001 = Wire.vl.escCode1) ∧
    (Receiving (withInputs (reading 1 false) [rx 0x000]) 0x000 [] ∧ (reading 1 false).esc = false ∧
      xData 0x000 ≠ Wire.vl.startMark ∧ xData 0x000 ≠ Wire.vl.escapeMark) :=
  ⟨⟨⟨rfl, rfl, by decide⟩, by unfold errorFree; decide, by decide⟩, ⟨⟨rfl, rfl, by decide⟩, by unfold errorFree; decide,
    by decide⟩, ⟨rfl, rfl, by decide⟩, by decide⟩

/-- Lengths 0, 1 and 6, a free buffer and a full ring, and each of the three operations. -/
theorem witness_FirstContentByte :
    (started false 0x10).Inv ∧ startedFull.Inv ∧ (started false 0x10).fatal = false ∧ (started false 0x10).st = .gotStart ∧
    startedFull.fatal = false ∧ startedFull.st = .gotStart ∧ IsContent (started false 0x10) (.rxlit 0xFF) 0xFF ∧
    IsContent (started true 0x54) .rxesc0 0x54 ∧ IsContent (started true 0x55) .rxesc1 0x55 ∧
    lenOf Cfg.tc1 0xFF 0x10 = 0 ∧ lenOf Cfg.tc1 0xFE 0x10 = 1 ∧ lenOf Cfg.tc1 0x10 0x10 = 6 ∧
    (started false 0x10).pending < Cfg.tc1.nbuf ∧ ¬ startedFull.pending < Cfg.tc1.nbuf :=
  ⟨started_inv, startedFull_inv, rfl, rfl, rfl, rfl, .inl ⟨rfl, rfl⟩, .inr (.inl ⟨rfl, rfl⟩), .inr (.inr ⟨rfl, rfl⟩),
    by decide⟩

/-- The first and the last offset of the rest of a frame, stored and not stored. -/
theorem witness_LaterContentByte :
    (reading 1 false).Inv ∧ (reading 5 true).Inv ∧ (readingFull 1).Inv ∧ (readingFull 5).Inv ∧
    (reading 1 false).fatal = false ∧ (reading 1 false).st = .reading ∧ IsContent (reading 1 false) (.rxlit 0) 0 ∧
    IsContent (reading 5 true) .rxesc0 0x54 ∧ IsContent (reading 5 true) .rxesc1 0x55 ∧
    (reading 1 false).sten = true ∧ (readingFull 1).sten = false ∧
    (reading 1 false).pos.toNat + 1 < (reading 1 false).explen.toNat ∧
    (reading 5 true).pos.toNat + 1 = (reading 5 true).explen.toNat :=
  ⟨reading_first_inv, reading_last_inv, readingFull_first_inv, readingFull_last_inv, rfl, rfl, .inl ⟨rfl, rfl⟩,
    .inr (.inl ⟨rfl, rfl⟩), .inr (.inr ⟨rfl, rfl⟩), by decide⟩

theorem witness_WindowCountsFailureEvents :
    (withInputs (reading 1 false) [rx 0x100]).Inv ∧ (reading 1 false).fatal = false ∧
    (withInputs (reading 1 false) [rx 0x100]).inputs = [.rx 0x100] := ⟨inv_of_invHolds (by decide), rfl, rfl⟩

theorem witness_CorruptStateGoesFatal :
    let s := withInputs { State.reset with st := .corrupt } [rx 0x055]
    s.st = .corrupt ∧ s.fatal = false ∧ s.inputs = [.rx 0x055] ∧ Instr.rxstart.isReceive = true ∧
    State.reset.st ≠ .corrupt ∧ ∃ t, step (withInputs State.reset [rx 0x055]) = .next t :=
  ⟨rfl, rfl, rfl, rfl, by decide, _, rfl⟩

theorem witness_FatalIgnoresReceiveEvents :
    let s := withInputs { State.reset with fatal := true } [rx 0x100]
    s.fatal = true ∧ s.inputs = [.rx 0x100] ∧ (Instr.rxerr 1 0).isReceive = true := ⟨rfl, rfl, rfl⟩

theorem witness_OnlyResetClearsFatal :
    let s := withInputs { State.reset with fatal := true } [.reset]
    (∃ t, step s = .next t ∧ t.fatal = false) ∧ s.fatal = true ∧ s.inputs.head? = some .reset :=
  ⟨⟨_, rfl, rfl⟩, rfl, rfl⟩

theorem witness_DecoderTransitionTable :
    State.reset.Inv ∧ (reading 5 true).Inv ∧ (started false 0x10).Inv ∧ (reading 1 false).Inv ∧
    rxIn .idle false 0x100 = .op (.rxerr 1 0) ∧ rxIn .reading true 0x055 = .op .rxstart ∧
    rxIn .idle false 0x054 = .op (.rxskip 0x54) ∧ rxIn .gotStart false 0x054 = .op .rxesc ∧
    rxIn .reading true 0x054 = .op (.rxescbad 0x54) ∧ rxIn .reading true 0x000 = .op .rxesc0 ∧
    rxIn .reading true 0x001 = .op .rxesc1 ∧ rxIn .gotStart false 0x0FF = .op (.rxlit 0xFF) :=
  ⟨reset_inv, reading_last_inv, started_inv, reading_first_inv, by decide⟩

theorem witness_ReceiveEventsLeaveConsumerState :
    let s := withInputs { State.reset with ovf := true } [rx 0x100]
    s.inputs = [.rx 0x100] ∧ (∃ t, step s = .next t) ∧ s.ovf = true := ⟨rfl, ⟨_, rfl⟩, rfl⟩

theorem witness_PendingFramesUntouchedByReceiveEvents :
    let s := withInputs { oneZeroFrame with st := .gotStart } [rx 0x0FE]
    s.Inv ∧ s.inputs = [.rx 0x0FE] ∧ (∃ t, step s = .next t ∧ t.buf.read (cellKey 1 0) ≠ s.buf.read (cellKey 1 0)) ∧
    0 < s.pending := ⟨inv_of_invHolds (by decide), rfl, ⟨_, rfl, by decide⟩, by decide⟩

theorem witness_AcceptedFrameIsStoredWhole :
    (reading 3 false).Inv ∧ (reading 3 false).fatal = false ∧ (reading 3 false).pending < Cfg.tc1.nbuf ∧
    Cfg.tc1.wire.escLit0 = Cfg.tc1.wire.escapeMark ∧ Cfg.tc1.wire.escLit1 = Cfg.tc1.wire.startMark ∧
    lenOf Cfg.tc1 0xFE 0x10 = ([0xFE] : List Byte).length ∧
    lenOf Cfg.tc1 0x10 0x10 = ([0x10, 0x00, 0x54, 0x55, 0x01, 0xFF] : List Byte).length :=
  ⟨inv_of_invHolds (by decide), by decide⟩

theorem witness_FrameOnFullRingIsDropped :
    fullRing.Inv ∧ fullRing.fatal = false ∧ fullRing.pending = fullRing.cfg.nbuf ∧
    lenOf Cfg.tc1 0x10 0x10 = ([0x10, 1, 2, 3, 4, 5] : List Byte).length := ⟨fullRing_inv, by decide⟩

theorem witness_RejectedFrameLeavesNoTrace :
    (reading 3 false).Inv ∧ (reading 3 false).fatal = false ∧ lenOf Cfg.tc1 0x11 0x10 = 0 ∧
    Cfg.tc1.wire.escLit0 = Cfg.tc1.wire.escapeMark ∧ Cfg.tc1.wire.escLit1 = Cfg.tc1.wire.startMark :=
  ⟨inv_of_invHolds (by decide), by decide⟩

/-- The three special addresses as the first byte and as the module's address. -/
theorem witness_StandardLengthFunction :
    Cfg.tc1.lenFn = .std ∧ Cfg.tc1.wire.addrStrobe = 0xFE ∧ Cfg.tc1.wire.addrInvalid = 0xFF ∧
    Cfg.tc1.wire.addrBroadcast = 0xFD ∧ lenOf Cfg.tc1 0xFE 0xFE = 1 ∧ lenOf Cfg.tc1 0xFF 0xFF = 0 ∧
    lenOf Cfg.tc1 0xFD 0xFD = 6 ∧ lenOf Cfg.tc1 0xFC 0xFC = 6 ∧ lenOf Cfg.tc1 0xFC 0xFB = 0 := by decide

/-- The smallest configuration, its length function a table. -/
def smallest : CfgFields where
  nbuf          := 1
  buflen        := 2
  cmdlen        := 2
  lenFn         := .table [⟨0, 0, 2⟩]
  failWindow    := 1
  failThreshold := 0
  outmax        := 0x00FF
  payloadOrder  := .lsbFirst

/-- The largest one. -/
def largest : CfgFields where
  nbuf          := 255
  buflen        := 255
  cmdlen        := 255
  failWindow    := 9
  failThreshold := 8
  payloadOrder  := .msbFirst

theorem witness_ConfigurationsMeetConstraints :
    (∃ cfg, Cfg.ofFields? Cfg.tc1.toCfgFields = some cfg) ∧ (∃ cfg, Cfg.ofFields? smallest = some cfg) ∧
    (∃ cfg, Cfg.ofFields? largest = some cfg) ∧ smallest.wire = Wire.vl ∧ largest.lenFn = .std ∧
    smallest.lenFn = .table [⟨0, 0, 2⟩] := ⟨⟨_, rfl⟩, ⟨_, rfl⟩, ⟨_, rfl⟩, rfl, rfl, rfl⟩

theorem witness_ModuleAddressReadOnFirstContentByteOnly :
    (Instr.rxlit 0x10).isReceive = true ∧ (reading 1 false).st ≠ .gotStart ∧
    ∃ t, exec (.rxlit 0x10) (reading 1 false) = .next t := ⟨rfl, by decide, ⟨_, rfl⟩⟩

theorem witness_PollReportsAndClearsOverflow : State.reset.Inv ∧ fullRing.Inv ∧
    State.Inv { oneZeroFrame with fatal := true, ovf := true } := ⟨reset_inv, fullRing_inv, fatal_inv⟩

theorem witness_OverflowIsReportedOnce : State.Inv { fullRing with ovf := true } ∧ fullRing.fatal = false :=
  ⟨inv_of_invHolds (by decide), rfl⟩

/-- Offset 5 is the last of a frame of six, 6 the first outside it. -/
theorem witness_RdbyteReadsOldestPendingFrame :
    oneZeroFrame.Inv ∧ (State.reset.fatal = false ∧ State.reset.pending = 0) ∧
    (oneZeroFrame.fatal = false ∧ (oneZeroFrame.lenAt oneZeroFrame.rd).toNat ≤ (6 : Byte).toNat) ∧
    (0 < oneZeroFrame.pending ∧ (5 : Byte).toNat < (oneZeroFrame.lenAt oneZeroFrame.rd).toNat) ∧
    State.Inv { oneZeroFrame with fatal := true, ovf := true } := ⟨oneZeroFrame_inv, by decide, by decide, by decide, fatal_inv⟩

theorem witness_ReleasePassesOldestFrame :
    State.reset.fatal = false ∧ State.reset.pending = 0 ∧ oneZeroFrame.fatal = false ∧ 0 < oneZeroFrame.pending ∧
    State.fatal { oneZeroFrame with fatal := true } = true := by decide

theorem witness_SetaddrWritesModuleAddress : State.fatal { State.reset with fatal := true } = true ∧
    State.reset.fatal = false := by decide

theorem witness_ReceiverCommandsAnswerFatal :
    State.Inv { oneZeroFrame with fatal := true, ovf := true } ∧ Instr.poll.isReceive = false ∧
    (∃ t, exec (.calr 12) State.reset = .next t) ∧ (Instr.calr 12).isReceive = false ∧ Instr.calr 12 ≠ .poll :=
  ⟨fatal_inv, rfl, ⟨_, rfl⟩, rfl, by decide⟩

theorem witness_OneResponsePerCommand :
    (withInputs State.reset [cmd 0x050000000000000000]).Inv ∧
    (∃ t, step (withInputs State.reset [rx 0x055]) = .next t) := ⟨inv_of_invHolds (by decide), ⟨_, rfl⟩⟩

theorem witness_CommandsLeaveReceiverState :
    (∃ t, step (withInputs State.reset [cmd 0x010000000000000000]) = .next t) ∧
    opNat (BitVec.ofNat 72 0x050000000000000000) ≠ 0x04 := ⟨⟨_, rfl⟩, by decide⟩

theorem witness_QdivTruncatesAndSaturates : (0 : Word) = 0 ∧ (1 : Word) ≠ 0 ∧ (0xFFFFFFFF : Word) ≠ 0 := by decide

theorem witness_CalwWritesOneRegister : 11 < (12 : BitVec 4).toNat ∧ (11 : BitVec 4).toNat ≤ 11 ∧
    0 ≠ (11 : BitVec 4).toNat := by decide

theorem witness_CalrReadsWrittenRegister : 11 < (12 : BitVec 4).toNat ∧
    ((11 : BitVec 4).toNat ≤ 11 ∧ State.reset.calValid 11 = false) ∧ identityLoaded.calValid 11 = true := by decide

theorem identityLoaded_calibrated : Calibrated identityLoaded := by unfold Calibrated; decide

theorem witness_CorrectNeedsFullCalibration : ∃ i, i < 12 ∧ State.calValid { State.reset with calv := 0x7FF } i = false :=
  ⟨11, by decide⟩

theorem witness_CorrectComputesTheTransform : Calibrated identityLoaded ∧ ¬ Calibrated State.reset :=
  ⟨identityLoaded_calibrated, fun h => by have := h 0 (by decide); revert this; decide⟩

theorem witness_CorrectStaysInOutputRange : Calibrated identityLoaded := identityLoaded_calibrated

/-- With the identity calibration and x = y = 1/65536, full luminosity: the ratios are 1/65536, 1/65536 and 1, the requested
scale 65535/65538; with a peak luminosity of 1/2 for blue it exceeds the largest scale, 1. -/
theorem witness_ColourWinsOverBrightness :
    let n (i : Nat) : Int := if i = 0 ∨ i = 4 ∨ i = 8 then 65536 else if i = 11 then 32768 else 0
    let q0 := clampZ (sumZ (mulZ (n 0) 1) (mulZ (n 1) 1) (n 2)).1
    let q1 := clampZ (sumZ (mulZ (n 3) 1) (mulZ (n 4) 1) (n 5)).1
    let q2 := clampZ (sumZ (mulZ (n 6) 1) (mulZ (n 7) 1) (n 8)).1
    let total := (sumZ (mulZ q0 (n 9)) (mulZ q1 (n 10)) (mulZ q2 (n 11))).1
    0 < total ∧ maxScaleZ [q0, q1, q2] < clip (divZ 65535 total) ∧ (0 : Half).toNat ≤ (0xFFFF : Half).toNat := by
  decide +kernel

theorem witness_IdentityCalibrationExample :
    Calibrated identityLoaded ∧ identityLoaded.cfg.outmax = 0xFFFF ∧
    ∀ i, i < 12 → identityLoaded.readCal i = if i ∈ [0, 4, 8, 9, 10, 11] then 0x00010000 else 0 :=
  ⟨identityLoaded_calibrated, rfl, by decide⟩

theorem witness_ResetInputRestoresResetState : (withInputs onePending [.reset]).inputs = .reset :: [] := rfl

theorem witness_ResetLeavesInputsAndResponses : (withInputs onePending [.reset]).inputs = .reset :: [] ∧
    ∃ t, step (withInputs onePending [.reset]) = .next t := ⟨rfl, ⟨_, rfl⟩⟩

theorem witness_StepKeepsInvariant : (withInputs (reading 5 true) [rx 0x000]).Inv ∧
    ∃ t, step (withInputs (reading 5 true) [rx 0x000]) = .next t := ⟨inv_of_invHolds (by decide), ⟨_, rfl⟩⟩

theorem witness_StepNeverStops : (withInputs (readingFull 5) [rx 0x000]).Inv := inv_of_invHolds (by decide)

theorem witness_PendingFramesFormFifo : (withInputs oneZeroFrame [cmd 0x030000000000000000]).Inv ∧
    ∃ t, step (withInputs oneZeroFrame [cmd 0x030000000000000000]) = .next t := ⟨inv_of_invHolds (by decide), ⟨_, rfl⟩⟩

theorem witness_OnlySetaddrAndResetWriteMyaddr :
    ∃ t, step (withInputs State.reset [cmd 0x040000000000000010]) = .next t ∧ t.myaddr ≠ State.reset.myaddr :=
  ⟨_, rfl, by decide⟩

theorem witness_StepKeepsConfiguration : ∃ t, step (withInputs State.reset [.reset]) = .next t := ⟨_, rfl⟩

theorem witness_LevelOutputsShowFatalAndPending : State.Inv { oneZeroFrame with fatal := true, ovf := true } := fatal_inv

end Sys2Proof.Tests
end

section
/-! Proofs for the family 00_scope.md: the dispatch of a step, the configuration, and the corrector's output range. -/

namespace Sys2Proof.Machine

open Sys2Proof.Claims

/-! ### Dispatch of a step -/

/-- Settles O6, by the kind of the input; a reset input decodes to no operation. -/
theorem stepRunsDecodedOperation : Obligations.StepRunsDecodedOperation := by
  unfold Obligations.StepRunsDecodedOperation
  intro s input rest i hin hdec
  cases input with
  | rx x => exact step_rx_op hin hdec
  | cmd c => exact step_cmd_op hin hdec
  | reset => cases hdec

/-- Settles O51: `takeReset` copies the three fields from the state it resets. -/
theorem resetLeavesInputsAndResponses : Obligations.ResetLeavesInputsAndResponses := by
  unfold Obligations.ResetLeavesInputsAndResponses
  intro s t rest hin hstep
  rw [step_reset hin] at hstep
  injection hstep with ht
  subst ht
  simp

/-! ### What a receive operation leaves alone -/

/-- What no receive operation changes between `s` and `t` (R43); `ovf` is only ever set. -/
structure ReceiveFrame (s t : State) : Prop where
  cfg : t.cfg = s.cfg
  rd : t.rd = s.rd
  myaddr : t.myaddr = s.myaddr
  cal : t.cal = s.cal
  calv : t.calv = s.calv
  inputs : t.inputs = s.inputs
  responses : t.responses = s.responses
  ovf : s.ovf = true → t.ovf = true

theorem ReceiveFrame.refl (s : State) : ReceiveFrame s s := ⟨rfl, rfl, rfl, rfl, rfl, rfl, rfl, id⟩

theorem content_receiveFrame {s t : State} {c : Byte} (h : s.content c = .ok t) : ReceiveFrame s t := by
  obtain ⟨hcfg, hrd, hmyaddr, hcal, hcalv, hinputs, hresponses, -, -, -, hovf⟩ := content_frame h
  exact ⟨hcfg, hrd, hmyaddr, hcal, hcalv, hinputs, hresponses, hovf⟩

/-- The frame of R139 touches the window and `fatal` only, so the middle part decides. -/
theorem onRx_receiveFrame {m : State → Except Fault RxDone} {s t : State}
    (hm : ∀ d, m s = .ok d → ReceiveFrame s d.state) (h : onRx m s = .next t) : ReceiveFrame s t := by
  rcases onRx_cases h with ⟨-, rfl⟩ | ⟨-, -, rfl⟩ | ⟨-, -, d, hd, rfl⟩
  · exact .refl t
  · exact ⟨rfl, rfl, rfl, rfl, rfl, rfl, rfl, id⟩
  · obtain ⟨hcfg, hrd, hmyaddr, hcal, hcalv, hinputs, hresponses, hovf⟩ := hm d hd
    exact ⟨hcfg, hrd, hmyaddr, hcal, hcalv, hinputs, hresponses, hovf⟩

/-- The frame of a failure event (R236). -/
theorem onRx_raiseFailure_receiveFrame {c : FailureCause} {s t : State} (h : onRx (raiseFailure c) s = .next t) :
    ReceiveFrame s t :=
  onRx_receiveFrame (fun d hd => by cases hd; exact ⟨rfl, rfl, rfl, rfl, rfl, rfl, rfl, id⟩) h

/-- The frame of an operation that raises no failure. -/
theorem onRx_noFailure_receiveFrame {f : State → Except Fault State} {s t : State}
    (hf : ∀ u, f s = .ok u → ReceiveFrame s u) (h : onRx (fun v => noFailure (f v)) s = .next t) :
    ReceiveFrame s t := by
  refine onRx_receiveFrame (fun d hd => ?_) h
  obtain ⟨u, hu, rfl⟩ := noFailure_cases hd
  exact hf u hu

/-- R43 for `exec` of a receive operation, in every state. -/
theorem exec_receive_frame {i : Instr} {s t : State} (hi : i.isReceive = true) (h : exec i s = .next t) :
    ReceiveFrame s t := by
  cases i with
  | rxerr | rxescbad =>
    simp only [exec, execRxerr, execRxescbad] at h
    exact onRx_raiseFailure_receiveFrame h
  | rxstart | rxskip | rxesc =>
    simp only [exec, execRxstart, execRxskip, execRxesc] at h
    refine onRx_noFailure_receiveFrame (fun u hu => ?_) h
    cases hu
    exact ⟨rfl, rfl, rfl, rfl, rfl, rfl, rfl, id⟩
  | rxesc0 | rxesc1 | rxlit =>
    simp only [exec, execRxesc0, execRxesc1, execRxlit] at h
    refine onRx_noFailure_receiveFrame (fun u hu => ?_) h
    obtain ⟨hcfg, hrd, hmyaddr, hcal, hcalv, hinputs, hresponses, hovf⟩ := content_receiveFrame hu
    exact ⟨hcfg, hrd, hmyaddr, hcal, hcalv, hinputs, hresponses, hovf⟩
  | _ => cases hi

/-! ### What a command can do -/

/-- The effect of a command on the block, before its response word is added: nothing, or the one update the command
is for. -/
inductive CommandEffect (s : State) : Instr → State → Prop where
  | unchanged (i : Instr) : CommandEffect s i s
  | overflowCleared (hf : s.fatal = false) (ho : s.ovf = true) : CommandEffect s .poll { s with ovf := false }
  | released (hf : s.fatal = false) (hp : s.pending ≠ 0) :
      CommandEffect s .release { s with rd := nextCursor s.cfg s.rd, pending := s.pending - 1 }
  | addressSet (a : Byte) (hf : s.fatal = false) : CommandEffect s (.setaddr a) { s with myaddr := a }
  | calWritten (k : BitVec 4) (v : Word) (hk : k.toNat ≤ 11) : CommandEffect s (.calw k v) (s.writeCal k.toNat v)

/-- The command's effect took place and one response word was returned. -/
def Answers (i : Instr) (s t : State) : Prop :=
  ∃ u x r0 r1 fl, CommandEffect s i u ∧ t = u.respond x r0 r1 fl

theorem answers_of_next {i : Instr} {s t u : State} {x : Status} {r0 r1 : Word} {fl : Byte} (hu : CommandEffect s i u)
    (h : (.next (u.respond x r0 r1 fl) : Host.Outcome State Fault Refusal) = .next t) : Answers i s t := by
  injection h with h
  exact ⟨u, x, r0, r1, fl, hu, h.symm⟩

theorem execPoll_answers {s t : State} (h : execPoll s = .next t) : Answers .poll s t := by
  unfold execPoll at h
  split at h
  · cases h
  · dsimp only at h
    split at h
    · exact answers_of_next (.unchanged _) h
    · split at h
      · exact answers_of_next (.overflowCleared (Bool.eq_false_of_not_eq_true ‹_›) ‹_›) h
      · exact answers_of_next (.unchanged _) h

theorem execRdbyte_answers {o : Byte} {s t : State} (h : execRdbyte o s = .next t) : Answers (.rdbyte o) s t := by
  unfold execRdbyte at h
  split at h
  · exact answers_of_next (.unchanged _) h
  · split at h
    · exact answers_of_next (.unchanged _) h
    · split at h
      · cases h
      · split at h
        · exact answers_of_next (.unchanged _) h
        · split at h
          · cases h
          · exact answers_of_next (.unchanged _) h

theorem execRelease_answers {s t : State} (h : execRelease s = .next t) : Answers .release s t := by
  unfold execRelease at h
  split at h
  · exact answers_of_next (.unchanged _) h
  · split at h
    · exact answers_of_next (.unchanged _) h
    · exact answers_of_next (.released (Bool.eq_false_of_not_eq_true ‹_›) ‹_›) h

theorem execSetaddr_answers {a : Byte} {s t : State} (h : execSetaddr a s = .next t) : Answers (.setaddr a) s t := by
  unfold execSetaddr at h
  split at h
  · exact answers_of_next (.unchanged _) h
  · exact answers_of_next (.addressSet a (Bool.eq_false_of_not_eq_true ‹_›)) h

theorem execCalw_answers {k : BitVec 4} {v : Word} {s t : State} (h : execCalw k v s = .next t) :
    Answers (.calw k v) s t := by
  unfold execCalw at h
  split at h
  · exact answers_of_next (.unchanged _) h
  · exact answers_of_next (.calWritten k v (Nat.le_of_not_gt ‹_›)) h

theorem execCalr_answers {k : BitVec 4} {s t : State} (h : execCalr k s = .next t) : Answers (.calr k) s t := by
  unfold execCalr at h
  split at h
  · exact answers_of_next (.unchanged _) h
  · split at h
    · exact answers_of_next (.unchanged _) h
    · exact answers_of_next (.unchanged _) h

theorem execCorrect_answers {x y lum : Half} {s t : State} (h : execCorrect x y lum s = .next t) :
    Answers (.correct x y lum) s t := by
  unfold execCorrect at h
  split at h
  · exact answers_of_next (.unchanged _) h
  · exact answers_of_next (.unchanged _) h

/-- Everything a command can do, in every state. -/
theorem exec_command_answers {i : Instr} {s t : State} (hi : i.isReceive = false) (h : exec i s = .next t) :
    Answers i s t := by
  cases i with
  | poll => exact execPoll_answers h
  | rdbyte => exact execRdbyte_answers h
  | release => exact execRelease_answers h
  | setaddr => exact execSetaddr_answers h
  | calw => exact execCalw_answers h
  | calr => exact execCalr_answers h
  | correct => exact execCorrect_answers h
  | nop | qadd | qsub | qmul | qdiv | qcmp | qmin | qmax => exact answers_of_next (.unchanged _) h
  | _ => cases hi

theorem Answers.cfg_eq {i : Instr} {s t : State} (h : Answers i s t) : t.cfg = s.cfg := by
  obtain ⟨u, x, r0, r1, fl, hu, rfl⟩ := h
  cases hu <;> rfl

/-! ### The configuration -/

/-- No operation changes the configuration (R14). -/
theorem exec_cfg {i : Instr} {s t : State} (h : exec i s = .next t) : t.cfg = s.cfg := by
  cases hi : i.isReceive with
  | true => exact (exec_receive_frame hi h).cfg
  | false => exact (exec_command_answers hi h).cfg_eq

/-- Settles O57, over everything a step can do. -/
theorem stepKeepsConfiguration : Obligations.StepKeepsConfiguration := by
  unfold Obligations.StepKeepsConfiguration
  intro s t h
  rcases step_cases h with ⟨-, rfl⟩ | ⟨rest, -, rfl⟩ | ⟨x, rest, -, hrx⟩ | ⟨c, rest, -, hcmd⟩
  · rfl
  · rfl
  · rcases hrx with ⟨-, rfl⟩ | ⟨-, -, rfl⟩ | ⟨-, -, i, -, -, -, hexec⟩
    · rfl
    · rfl
    · exact (exec_cfg hexec).trans rfl
  · rcases hcmd with ⟨row, -, -, hexec⟩ | ⟨-, rfl⟩
    · exact (exec_cfg hexec).trans rfl
    · rfl

/-- A block is built with the fields given, and with no others. -/
theorem toCfgFields_of_ofFields? {f : CfgFields} {cfg : Cfg} (h : Cfg.ofFields? f = some cfg) :
    cfg.toCfgFields = f := by
  unfold Cfg.ofFields? at h
  split at h
  · injection h with h
    subst h
    rfl
  · cases h

/-- Fields that meet the constraints build a block. -/
theorem ofFields?_of_legal {f : CfgFields} (h : f.legal = true) : Cfg.ofFields? f = some ⟨f, h⟩ := by
  simp [Cfg.ofFields?, h]

/-- The standard length function always fits, a table fits row by row. -/
theorem lenFn_fits_of_rows {n : Nat} {l : LenFn}
    (h : l = .std ∨ ∃ rows, l = .table rows ∧ ∀ r ∈ rows, r.len ≤ n) : l.fits n = true := by
  rcases h with rfl | ⟨rows, rfl, hrows⟩
  · rfl
  · simpa [LenFn.fits] using hrows

/-- Settles O26: a `Cfg` carries its legality (`CfgFields.legal_iff`), and `lenOf_le` bounds `LEN` by it. -/
theorem configurationsMeetConstraints : Obligations.ConfigurationsMeetConstraints := by
  unfold Obligations.ConfigurationsMeetConstraints
  constructor
  · intro f cfg h
    obtain rfl := toCfgFields_of_ofFields? h
    obtain ⟨hmarks, hcode0, hcode1, -⟩ := (Wire.legal_iff _).1 cfg.wire_legal
    exact ⟨rfl, cfg.nbuf_pos, cfg.nbuf_le, cfg.buflen_ge, cfg.buflen_le, cfg.cmdlen_ge, cfg.cmdlen_le,
      cfg.failWindow_pos, cfg.failThreshold_lt, cfg.outmax_cases, hmarks, hcode0, hcode1, lenOf_le cfg⟩
  · intro f hwire hnbuf hnbuf' hbuflen hbuflen' hcmdlen hcmdlen' hwindow hthreshold houtmax hlen
    have hwireLegal : f.wire.legal = true := by rw [hwire]; decide
    have hlegal : f.legal = true := f.legal_iff.2 ⟨hnbuf, hnbuf', hbuflen, hbuflen', hcmdlen, hcmdlen',
      lenFn_fits_of_rows hlen, hwindow, hthreshold, houtmax, hwireLegal⟩
    exact ⟨_, ofFields?_of_legal hlegal, rfl⟩

/-! ### The corrector's output range -/

/-- The model's response, by the claims' rendering of the response word (R108). -/
theorem respond_eq_answered (s : State) (x : Status) (r0 r1 : Word) (fl : Byte) :
    s.respond x r0 r1 fl = answered s (statusCode x) fl r0 r1 := by
  unfold State.respond answered rWord
  rw [← responseWord_toNat, BitVec.ofNat_toNat, BitVec.setWidth_eq]

/-- All twelve valid bits set is the full bit vector (R37, R219). -/
theorem calibrated_iff_calv (s : State) : Calibrated s ↔ s.calv = 0xFFF := by
  have hfull : ∀ i, i < 12 → (0xFFF : BitVec 12).getLsbD i = true := by decide
  unfold Calibrated State.calValid
  constructor
  · intro h
    exact BitVec.eq_of_getLsbD_eq fun i hi => (h i hi).trans (hfull i hi).symm
  · intro h i hi
    rw [h]
    exact hfull i hi

/-- CORRECT with a full calibration answers the transform, packed as R111 says. -/
theorem exec_correct_of_calibrated {s : State} (hs : Calibrated s) (x y lum : Half) :
    let c := correctColour s.cfg.outmax s.readCal x y lum
    exec (.correct x y lum) s =
      .next (answered s 0x00 (flagsByte c.sat false c.degen) (c.r ++ c.g) (c.b.setWidth 32)) := by
  show execCorrect x y lum s = _
  unfold execCorrect
  rw [if_neg (not_not_intro ((calibrated_iff_calv s).1 hs))]
  exact congrArg _ (respond_eq_answered ..)

/-- A drive value is clamped to 0..1.0, so its output is at most OUTMAX (R218). -/
theorem outputOf_drive_le (outmax : Half) (q eff : Word) :
    (outputOf outmax (drive q eff).value).toNat ≤ outmax.toNat :=
  (outputOf_toNat (clamp01_toNat _).2 outmax).2

/-- The outputs of the transform never exceed OUTMAX: zero where it is degenerate, driven values elsewhere. -/
theorem correctColour_le (outmax : Half) (m : Nat → Word) (x y lum : Half) :
    let c := correctColour outmax m x y lum
    c.r.toNat ≤ outmax.toNat ∧ c.g.toNat ≤ outmax.toNat ∧ c.b.toNat ≤ outmax.toNat := by
  unfold correctColour
  dsimp only
  split
  · exact ⟨Nat.zero_le _, Nat.zero_le _, Nat.zero_le _⟩
  · exact ⟨outputOf_drive_le .., outputOf_drive_le .., outputOf_drive_le ..⟩

/-- Settles O46: the answer is the transform's, whose outputs are bounded for every calibration. -/
theorem correctStaysInOutputRange : Obligations.CorrectStaysInOutputRange := by
  unfold Obligations.CorrectStaysInOutputRange
  intro s x y lum hs
  exact ⟨_, _, _, _, exec_correct_of_calibrated hs x y lum, correctColour_le s.cfg.outmax s.readCal x y lum⟩

end Sys2Proof.Machine
end

section
/-! Proofs for the family 10_state.md: the invariants R40 from reset on, who writes which register, the two level
outputs, and the overflow report. -/

namespace Sys2Proof.Machine

open Sys2Proof.Claims

/-! ### The reset state -/

/-- Settles O49: each item as `State.resetOf` sets it. -/
theorem resetStateHasSpecifiedValues : Obligations.ResetStateHasSpecifiedValues := by
  unfold Obligations.ResetStateHasSpecifiedValues
  exact ⟨⟨Cfg.tc1, rfl⟩, fun c => ⟨rfl, rfl, rfl, rfl, rfl, rfl, rfl, rfl, rfl, rfl, rfl, rfl, rfl, rfl, rfl⟩⟩

/-- The window is empty of failures after reset. -/
theorem popcount_replicate_false (n : Nat) : popcount (List.replicate n false) = 0 := by
  simp [popcount_eq_count, List.count_replicate]

/-- After reset nothing is pending, no frame is in progress and the memory lists no cell. -/
theorem resetOf_inv (c : Cfg) : (State.resetOf c).Inv where
  flenLength := List.length_replicate
  fwinLength := List.length_replicate
  bufWf := wf_nil
  bufCells := fun _ hd => nomatch hd
  rdRange := c.nbuf_pos
  pendingLe := Nat.zero_le _
  wrEq := (Nat.zero_mod _).symm
  notCorrupt := nofun
  idleEsc := fun _ => rfl
  gotStartPos := fun _ => rfl
  readingPos := nofun
  readingSten := nofun
  pendingLen := nofun
  withinThreshold := fun _ => (popcount_replicate_false _).trans_le (Nat.zero_le _)

/-- Settles O52, field by field. -/
theorem resetStateMeetsInvariant : Obligations.ResetStateMeetsInvariant := by
  unfold Obligations.ResetStateMeetsInvariant
  exact resetOf_inv

/-- The reset input restores the invariants from any state at all (R260). -/
theorem takeReset_inv (s : State) : s.takeReset.Inv := { resetOf_inv s.cfg with }

/-! ### The invariants over the updates of the state

An update that touches no field the invariants speak of keeps them field by field: `{ h with }`. -/

/-- The ring after RELEASE (R175): the pending buffers are those before it but the oldest. -/
theorem pendingBuffer_released (s : State) (j : Nat) :
    State.pendingBuffer { s with rd := nextCursor s.cfg s.rd, pending := s.pending - 1 } j = s.pendingBuffer (j + 1) := by
  simp only [State.pendingBuffer, nextCursor, Nat.mod_add_mod]
  rw [Nat.add_assoc, Nat.add_comm 1 j]

/-- The lengths after `flen[k] <- l` (R30): the written entry reads as `l`, every other one as before. -/
theorem lenAt_set {s : State} {k : Nat} (hk : k < s.flen.length) (l : Byte) (n : Nat) :
    (s.flen.set k l).getD n 0 = if n = k then l else s.lenAt n := by
  rw [State.lenAt, List.getD_eq_getElem?_getD, List.getElem?_set]
  by_cases hn : n = k
  · simp [hn, hk]
  · simp [hn, Ne.symm hn]

namespace State.Inv

variable {s : State}

theorem takeInputs (h : s.Inv) (rest : List Input) : State.Inv { s with inputs := rest } := { h with }

theorem respond (h : s.Inv) (x : Status) (r0 r1 : Word) (fl : Byte) : (s.respond x r0 r1 fl).Inv := { h with }

theorem clearOverflow (h : s.Inv) : State.Inv { s with ovf := false } := { h with }

theorem released (h : s.Inv) (hp : s.pending ≠ 0) :
    State.Inv { s with rd := nextCursor s.cfg s.rd, pending := s.pending - 1 } := by
  have hle := h.pendingLe
  exact { h with
    rdRange := Nat.mod_lt _ s.cfg.nbuf_pos
    pendingLe := by dsimp only; omega
    wrEq := by
      have hsum : s.rd + 1 + (s.pending - 1) = s.rd + s.pending := by omega
      simp only [nextCursor, Nat.mod_add_mod, hsum]
      exact h.wrEq
    readingSten := fun hr hs => by
      have := h.readingSten hr hs
      dsimp only
      omega
    pendingLen := fun j hj => by
      rw [pendingBuffer_released]
      exact h.pendingLen (j + 1) (by dsimp only at hj; omega) }

/-- The end of a receive event: past the threshold the block is fatal, so the bound asks nothing there (R241). -/
theorem recordEvent (h : s.Inv) (f : Bool) : (s.recordEvent f).Inv := { h with
  fwinLength := shiftWindow_length h.fwinLength f
  withinThreshold := fun hf => by
    rw [recordEvent_fatal, Bool.or_eq_false_iff, decide_eq_false_iff_not] at hf
    exact Nat.le_of_not_gt hf.2 }

theorem closeEscape (h : s.Inv) : State.Inv { s with esc := false } := { h with
  idleEsc := fun _ => rfl }

theorem openEscape (h : s.Inv) (hst : s.st ≠ .idle) : State.Inv { s with esc := true } := { h with
  idleEsc := fun hi => absurd hi hst }

theorem startFrame (h : s.Inv) : State.Inv { s with st := .gotStart, esc := false, pos := 0 } := { h with
  notCorrupt := nofun
  idleEsc := nofun
  gotStartPos := fun _ => rfl
  readingPos := nofun
  readingSten := nofun }

/-- With no frame in progress the frame's own registers may hold anything (R40 (e) to (g)). -/
theorem toIdle (h : s.Inv) (hesc : s.esc = false) (pos explen : Byte) (sten : Bool) :
    State.Inv { s with st := .idle, pos := pos, explen := explen, sten := sten } := { h with
  notCorrupt := nofun
  idleEsc := fun _ => hesc
  gotStartPos := nofun
  readingPos := nofun
  readingSten := nofun }

theorem abortFrame (h : s.Inv) : s.abortFrame.Inv := h.closeEscape.toIdle rfl s.pos s.explen s.sten

/-- A frame in progress, between its first byte and its last (R40 (f), (g)). -/
theorem toReading (h : s.Inv) {pos explen : Byte} {sten : Bool}
    (hpos : 1 ≤ pos.toNat ∧ pos.toNat < explen.toNat ∧ explen.toNat ≤ s.cfg.buflen)
    (hsten : sten = true → s.pending < s.cfg.nbuf) :
    State.Inv { s with st := .reading, pos := pos, explen := explen, sten := sten } := { h with
  notCorrupt := nofun
  idleEsc := nofun
  gotStartPos := nofun
  readingPos := fun _ => hpos
  readingSten := fun _ => hsten }

/-- A store of a content byte at an offset inside the buffer (R64). -/
theorem stored (h : s.Inv) (sten : Bool) {o : Nat} (ho : o < s.cfg.buflen) (c : Byte) :
    State.Inv { s with buf := if sten then s.buf.write (cellKey s.wr o) c else s.buf } := by
  cases sten with
  | false => exact { h with }
  | true =>
    exact { h with
      bufWf := write_wf h.bufWf _ _
      bufCells := fun d hd => by
        rcases mem_write hd with hd | rfl
        · exact h.bufCells d hd
        · exact ⟨s.wr, o, rfl, (cellExists_iff _ _ _).2 ⟨h.wr_lt, ho⟩⟩ }

/-- Completion of a stored frame (R143): the buffer at the write cursor joins the queue with its length. -/
theorem completed (h : s.Inv) (hidle : s.st = .idle) (hp : s.pending < s.cfg.nbuf)
    (hlen : 1 ≤ s.explen.toNat ∧ s.explen.toNat ≤ s.cfg.buflen) :
    State.Inv { s with
      flen := s.flen.set s.wr s.explen, wr := (s.wr + 1) % s.cfg.nbuf, pending := s.pending + 1 } := { h with
  flenLength := List.length_set.trans h.flenLength
  pendingLe := hp
  wrEq := by simp only [h.wrEq, Nat.mod_add_mod, Nat.add_assoc]
  readingSten := fun hr => by rw [hidle] at hr; cases hr
  pendingLen := fun j hj => by
    change 1 ≤ ((s.flen.set s.wr s.explen).getD (s.pendingBuffer j) 0).toNat ∧
      ((s.flen.set s.wr s.explen).getD (s.pendingBuffer j) 0).toNat ≤ s.cfg.buflen
    rw [lenAt_set h.wr_lt_flen]
    rcases Nat.lt_succ_iff_lt_or_eq.1 hj with hj | rfl
    · rw [if_neg (h.wr_not_pending hp hj)]
      exact h.pendingLen j hj
    · have hwr : s.pendingBuffer s.pending = s.wr := h.wrEq.symm
      rw [if_pos hwr]
      exact hlen }

end State.Inv

/-! ### The invariants over a content byte -/

/-- The frame's last byte (R143), in the state with the byte stored and the decoder back in IDLE. -/
theorem State.Inv.frameEnd {s : State} (h : s.Inv) (hidle : s.st = .idle) (hp : s.sten = true → s.pending < s.cfg.nbuf)
    (hlen : 1 ≤ s.explen.toNat ∧ s.explen.toNat ≤ s.cfg.buflen) :
    State.Inv (if s.sten then { s with
        flen := s.flen.set s.wr s.explen, wr := (s.wr + 1) % s.cfg.nbuf, pending := s.pending + 1 }
      else { s with ovf := true }) := by
  split
  · exact h.completed hidle (hp ‹_›) hlen
  · exact { h with }

/-- R141 keeps the invariants: a rejected frame, a frame of one byte, and a longer one. -/
theorem firstContent_inv {s t : State} {c : Byte} (h : s.Inv) (hesc : s.esc = false) (ht : s.firstContent c = .ok t) :
    t.Inv := by
  rw [firstContent_eq h] at ht
  injection ht with ht
  subst ht
  have hle := lenOf_le s.cfg c s.myaddr
  have hlen := lenOf_toNat s.cfg c s.myaddr
  have hbuflen := s.cfg.buflen_ge
  generalize lenOf s.cfg c s.myaddr = len at hle hlen ⊢
  dsimp only
  split
  · exact h.toIdle hesc s.pos s.explen s.sten
  · have hoffset : 0 < s.cfg.buflen := by omega
    split
    · have hrange : 1 ≤ (BitVec.ofNat 8 len).toNat ∧ (BitVec.ofNat 8 len).toNat ≤ s.cfg.buflen := by omega
      exact ((h.toIdle hesc 1 _ _).stored _ hoffset c).frameEnd rfl of_decide_eq_true hrange
    · have hrange : 1 ≤ (1 : Byte).toNat ∧ (1 : Byte).toNat < (BitVec.ofNat 8 len).toNat ∧
          (BitVec.ofNat 8 len).toNat ≤ s.cfg.buflen := by
        rw [show (1 : Byte).toNat = 1 from rfl]
        omega
      exact (h.toReading hrange of_decide_eq_true).stored _ hoffset c

/-- R142 keeps the invariants: the frame's last byte, and one before it. -/
theorem laterContent_inv {s t : State} {c : Byte} (h : s.Inv) (hesc : s.esc = false) (hst : s.st = .reading)
    (ht : s.laterContent c = .ok t) : t.Inv := by
  rw [laterContent_eq h hst] at ht
  injection ht with ht
  subst ht
  obtain ⟨hpos, hposlt, hle⟩ := h.readingPos hst
  obtain ⟨hsucc, hlast⟩ := h.pos_succ hst
  have hsten := h.readingSten hst
  have hoffset : s.pos.toNat < s.cfg.buflen := by omega
  dsimp only
  split
  · exact ((h.toIdle hesc (s.pos + 1) s.explen s.sten).stored _ hoffset c).frameEnd rfl hsten
      ⟨hpos.trans hposlt.le, hle⟩
  · have hnot := mt hlast.2 ‹_›
    have hrange : 1 ≤ (s.pos + 1).toNat ∧ (s.pos + 1).toNat < s.explen.toNat ∧ s.explen.toNat ≤ s.cfg.buflen := by omega
    have hread := (h.toReading hrange hsten).stored s.sten hoffset c
    rw [← hst] at hread
    exact hread

/-- A content byte with no escape open keeps the invariants; outside a frame it is a fault (R138). -/
theorem content_inv {s t : State} {c : Byte} (h : s.Inv) (hesc : s.esc = false) (ht : s.content c = .ok t) : t.Inv := by
  unfold State.content at ht
  split at ht
  · exact firstContent_inv h hesc ht
  · exact laterContent_inv h hesc ‹_› ht
  · cases ht
  · cases ht

/-! ### The invariants over a step -/

/-- The frame of R139 keeps the invariants where the middle part does. -/
theorem onRx_inv {m : State → Except Fault RxDone} {s t : State} (h : s.Inv)
    (hm : ∀ d, m s = .ok d → d.state.Inv) (ht : onRx m s = .next t) : t.Inv := by
  rcases onRx_cases ht with ⟨-, rfl⟩ | ⟨-, hc, -⟩ | ⟨-, -, d, hd, rfl⟩
  · exact h
  · exact absurd hc h.notCorrupt
  · exact (hm d hd).recordEvent d.failed

theorem onRx_noFailure_inv {f : State → Except Fault State} {s t : State} (h : s.Inv)
    (hf : ∀ u, f s = .ok u → u.Inv) (ht : onRx (fun v => noFailure (f v)) s = .next t) : t.Inv := by
  refine onRx_inv h (fun d hd => ?_) ht
  obtain ⟨u, hu, rfl⟩ := noFailure_cases hd
  exact hf u hu

/-- A receive operation keeps the invariants where R96 selects it. -/
theorem exec_receive_inv {i : Instr} {s t : State} (h : s.Inv) (hi : i.isReceive = true)
    (hsel : i.selectableIn s.rxContext = true) (ht : exec i s = .next t) : t.Inv := by
  cases i with
  | rxerr | rxescbad =>
    simp only [exec, execRxerr, execRxescbad] at ht
    exact onRx_inv h (fun d hd => by cases hd; exact h.abortFrame) ht
  | rxstart =>
    simp only [exec, execRxstart] at ht
    exact onRx_noFailure_inv h (fun u hu => by cases hu; exact h.startFrame) ht
  | rxskip =>
    simp only [exec, execRxskip] at ht
    exact onRx_noFailure_inv h (fun u hu => by cases hu; exact h) ht
  | rxesc =>
    have hst : s.st ≠ .idle := fun hidle => by
      simp [Instr.selectableIn, State.rxContext, hidle, DecSt.inFrame] at hsel
    simp only [exec, execRxesc] at ht
    exact onRx_noFailure_inv h (fun u hu => by cases hu; exact h.openEscape hst) ht
  | rxesc0 | rxesc1 =>
    simp only [exec, execRxesc0, execRxesc1] at ht
    exact onRx_noFailure_inv h (fun u hu => content_inv h.closeEscape rfl hu) ht
  | rxlit =>
    have hesc : s.esc = false := by
      simp only [Instr.selectableIn, State.rxContext, Bool.and_eq_true, Bool.not_eq_true'] at hsel
      exact hsel.2
    simp only [exec, execRxlit] at ht
    exact onRx_noFailure_inv h (fun u hu => content_inv h hesc hu) ht
  | _ => cases hi

/-- A command keeps the invariants: its one update does, and the response is outside them. -/
theorem Answers.inv {i : Instr} {s t : State} (h : s.Inv) (ha : Answers i s t) : t.Inv := by
  obtain ⟨u, x, r0, r1, fl, hu, rfl⟩ := ha
  have huInv : u.Inv := by
    cases hu with
    | unchanged => exact h
    | overflowCleared => exact h.clearOverflow
    | released _ hp => exact h.released hp
    | addressSet => exact { h with }
    | calWritten => exact { h with }
  exact huInv.respond x r0 r1 fl

/-- The rows of the opcode map are commands. -/
theorem opcodeMap_isReceive {row : Byte × (Word → Word → Instr)} (hrow : row ∈ opcodeMap) (a b : Word) :
    (row.2 a b).isReceive = false := by
  have hall : ∀ r ∈ opcodeMap, (r.2 a b).isReceive = false := by simp [opcodeMap, Instr.isReceive]
  exact hall row hrow

/-- Settles O53, over everything a step can do. -/
theorem stepKeepsInvariant : Obligations.StepKeepsInvariant := by
  unfold Obligations.StepKeepsInvariant
  intro s t h hstep
  rcases step_cases hstep with ⟨-, rfl⟩ | ⟨rest, -, rfl⟩ | ⟨x, rest, -, hrx⟩ | ⟨c, rest, -, hcmd⟩
  · exact h
  · exact takeReset_inv _
  · rcases hrx with ⟨-, rfl⟩ | ⟨-, hcorrupt, -⟩ | ⟨-, -, i, -, hi, hsel, hexec⟩
    · exact h.takeInputs rest
    · exact absurd hcorrupt h.notCorrupt
    · exact exec_receive_inv (h.takeInputs rest) hi hsel hexec
  · rcases hcmd with ⟨row, hrow, -, hexec⟩ | ⟨-, rfl⟩
    · exact (exec_command_answers (opcodeMap_isReceive hrow _ _) hexec).inv (h.takeInputs rest)
    · exact (h.takeInputs rest).respond _ _ _ _

/-! ### What a receive event leaves alone -/

/-- R43 for a step on a receive event, in every state. -/
theorem step_rx_receiveFrame {s t : State} {x : XWord} {rest : List Input} (hin : s.inputs = .rx x :: rest)
    (hstep : step s = .next t) : ReceiveFrame { s with inputs := rest } t := by
  rcases step_cases hstep with ⟨hno, -⟩ | ⟨_, hno, -⟩ | ⟨_, _, hin', hrx⟩ | ⟨_, _, hno, -⟩
  · simp [hin] at hno
  · simp [hin] at hno
  · obtain ⟨-, rfl⟩ := List.cons.inj (hin.symm.trans hin')
    rcases hrx with ⟨-, rfl⟩ | ⟨-, -, rfl⟩ | ⟨-, -, i, -, hi, -, hexec⟩
    · exact .refl _
    · exact ⟨rfl, rfl, rfl, rfl, rfl, rfl, rfl, id⟩
    · exact exec_receive_frame hi hexec
  · simp [hin] at hno

/-- Settles O20: the frame of a receive event, the input taken first. -/
theorem receiveEventsLeaveConsumerState : Obligations.ReceiveEventsLeaveConsumerState := by
  unfold Obligations.ReceiveEventsLeaveConsumerState
  intro s t x rest hin hstep
  obtain ⟨hcfg, hrd, hmyaddr, hcal, hcalv, hinputs, hresponses, hovf⟩ := step_rx_receiveFrame hin hstep
  exact ⟨hinputs, hcfg, hrd, hmyaddr, hcal, hcalv, hresponses, hovf⟩

/-! ### What a command leaves alone -/

/-- A command word's `op` is the code its operation stands in the opcode table with (R101). -/
theorem row_of_opField {row : Byte × (Word → Word → Instr)} (hrow : row ∈ opcodeMap) {c : CWord}
    (hop : opField c = row.1) (a b : Word) : Laws.WordFormat.row (row.2 a b) (.cmd c) := by
  have hnat : opNat c = row.1.toNat := hop ▸ (opField_toNat c).symm
  have hall : ∀ r ∈ opcodeMap, opNat c = r.1.toNat → Laws.WordFormat.row (r.2 a b) (.cmd c) := by
    simp [opcodeMap, Laws.WordFormat.row, Laws.WordFormat.hasOp, opNat]
  exact hall row hrow hnat

/-- A SETADDR of the opcode map takes its operand from `b[7:0]` (R106). -/
theorem opcodeMap_setaddr {row : Byte × (Word → Word → Instr)} (hrow : row ∈ opcodeMap) {a b : Word} {v : Byte}
    (h : row.2 a b = .setaddr v) : v = b.extractLsb' 0 8 := by
  have hall : ∀ r ∈ opcodeMap, r.2 a b = .setaddr v → v = b.extractLsb' 0 8 := by
    simp [opcodeMap, eq_comm]
  exact hall row hrow h

/-- Everything a step on a command word can do: an operation of the opcode map answers, or a reserved `op` is refused
(R112). -/
theorem step_command_cases {s t : State} {c : CWord} {rest : List Input} (hin : s.inputs = .cmd c :: rest)
    (hstep : step s = .next t) :
    (∃ row ∈ opcodeMap, opField c = row.1 ∧ Answers (row.2 (aField c) (bField c)) { s with inputs := rest } t) ∨
    t = State.respond { s with inputs := rest } .wrongCommand 0 0 := by
  rcases step_cases hstep with ⟨hno, -⟩ | ⟨_, hno, -⟩ | ⟨_, _, hno, -⟩ | ⟨_, _, hin', hcmd⟩
  · simp [hin] at hno
  · simp [hin] at hno
  · simp [hin] at hno
  · obtain ⟨hc, rfl⟩ := List.cons.inj (hin.symm.trans hin')
    obtain rfl := Input.cmd.inj hc
    rcases hcmd with ⟨row, hrow, hop, hexec⟩ | ⟨-, rfl⟩
    · exact .inl ⟨row, hrow, hop, exec_command_answers (opcodeMap_isReceive hrow _ _) hexec⟩
    · exact .inr rfl

/-- Settles O36: each of the four effects belongs to the command whose code the statement exempts. -/
theorem commandsLeaveReceiverState : Obligations.CommandsLeaveReceiverState := by
  unfold Obligations.CommandsLeaveReceiverState
  intro s t c rest hin hstep
  rcases step_command_cases hin hstep with ⟨row, hrow, hop, u, x, r0, r1, fl, heffect, rfl⟩ | rfl
  · have hrowCode := row_of_opField hrow hop (aField c) (bField c)
    generalize row.2 (aField c) (bField c) = i at heffect hrowCode
    cases heffect with
    | unchanged => simp
    | overflowCleared =>
      have hcode : opNat c = 0x01 := hrowCode
      simp [hcode]
    | released =>
      have hcode : opNat c = 0x03 := hrowCode
      simp [hcode]
    | addressSet =>
      have hcode : opNat c = 0x04 := hrowCode
      simp [hcode]
    | calWritten =>
      have hcode : opNat c = 0x10 := hrowCode
      simp [hcode]
  · simp

/-- The low byte of a command word's `b` as a number. -/
theorem bField_low_byte (c : CWord) : (bField c).extractLsb' 0 8 = BitVec.ofNat 8 (bNat c) := by
  apply BitVec.eq_of_toNat_eq
  rw [BitVec.extractLsb'_toNat, bField_toNat, BitVec.toNat_ofNat, Nat.shiftRight_zero, bNat]

/-- A command word that changes MYADDR is a SETADDR of the new value (R34, R176). -/
theorem step_command_myaddr {s t : State} {c : CWord} {rest : List Input} (hin : s.inputs = .cmd c :: rest)
    (hstep : step s = .next t) (hne : t.myaddr ≠ s.myaddr) :
    opNat c = 0x04 ∧ t.myaddr = BitVec.ofNat 8 (bNat c) := by
  rcases step_command_cases hin hstep with ⟨row, hrow, hop, u, x, r0, r1, fl, heffect, rfl⟩ | rfl
  · have hrowCode := row_of_opField hrow hop (aField c) (bField c)
    have hoperand := fun v => opcodeMap_setaddr hrow (a := aField c) (b := bField c) (v := v)
    generalize row.2 (aField c) (bField c) = i at heffect hrowCode hoperand
    cases heffect with
    | addressSet v => exact ⟨hrowCode, (hoperand v rfl).trans (bField_low_byte c)⟩
    | unchanged | overflowCleared | released | calWritten => exact absurd rfl hne
  · exact absurd rfl hne

/-- Settles O56, by the kind of the input. -/
theorem onlySetaddrAndResetWriteMyaddr : Obligations.OnlySetaddrAndResetWriteMyaddr := by
  unfold Obligations.OnlySetaddrAndResetWriteMyaddr
  intro s t hstep hne
  rcases hin : s.inputs with _ | ⟨x | c | _, rest⟩
  · rw [step_idle hin] at hstep
    injection hstep with ht
    exact absurd (congrArg State.myaddr ht.symm) hne
  · exact absurd (step_rx_receiveFrame hin hstep).myaddr hne
  · exact .inl ⟨c, rfl, step_command_myaddr hin hstep hne⟩
  · rw [step_reset hin] at hstep
    injection hstep with ht
    exact .inr ⟨rfl, congrArg State.myaddr ht.symm⟩

/-! ### What POLL reports -/

/-- POLL's `len` as a reader of the state sees it (R171). -/
def State.reportedLen (s : State) : Byte := if s.pending > 0 then s.lenAt s.rd else 0

/-- POLL while fatal reports and changes nothing (R171). -/
theorem exec_poll_fatal {s : State} (h : s.Inv) (hf : s.fatal = true) :
    exec .poll s = .next (s.respond .fatal (pollWord s.pending s.reportedLen s.fatal s.ovf) 0) := by
  show execPoll s = _
  unfold execPoll
  rw [h.headLen_eq]
  exact if_pos hf

/-- POLL of a live block reports `ovf` and leaves it clear (R31, R171). -/
theorem exec_poll_live {s : State} (h : s.Inv) (hf : s.fatal = false) :
    exec .poll s = .next (State.respond { s with ovf := false } (if s.ovf then .commandOverflow else .ok)
      (pollWord s.pending s.reportedLen s.fatal s.ovf) 0) := by
  show execPoll s = _
  unfold execPoll
  rw [h.headLen_eq]
  dsimp only
  rw [if_neg (by simp [hf])]
  cases hovf : s.ovf with
  | true => rfl
  | false =>
    have hclear : { s with ovf := false } = s := by rw [← hovf]
    rw [hclear]
    rfl

/-- The overflow bit is bit 1 of POLL's result field (R111). -/
theorem pollWord_overflow (pending : Nat) (len : Byte) (fatal ovf : Bool) :
    pollWord pending len fatal ovf = pollWord pending len fatal false ||| (if ovf then 2 else 0) := by
  have hbit : (if ovf then 2 else 0 : Word) =
      ((0 : BitVec (8 + 8 + 5 + 1)) ++ BitVec.ofBool ovf ++ BitVec.ofBool false).setWidth 32 := by cases ovf <;> decide
  rw [hbit, pollWord, pollWord, ← BitVec.setWidth_or, BitVec.or_append, BitVec.or_append]
  simp

/-- Settles O30: the first POLL leaves `ovf` clear and all else but the responses as it was, so the second reports the
same word without the overflow bit. -/
theorem overflowIsReportedOnce : Obligations.OverflowIsReportedOnce := by
  unfold Obligations.OverflowIsReportedOnce
  intro s h hf
  have hfirst := exec_poll_live h hf
  have hsecond := exec_poll_live (h.clearOverflow.respond (if s.ovf then .commandOverflow else .ok)
    (pollWord s.pending s.reportedLen s.fatal s.ovf) 0 0) hf
  refine ⟨_, _, pollWord s.pending s.reportedLen s.fatal false, hfirst, hsecond, ?_, ?_, rfl, rfl⟩
  · rw [respond_eq_answered, pollWord_overflow]
    cases s.ovf <;> rfl
  · exact congrArg State.responses (respond_eq_answered ..)

/-! ### The level outputs -/

/-- Fatal or not, POLL's one response carries its result field (R171). -/
theorem exec_poll_responses {s : State} (h : s.Inv) :
    ∃ t x, exec .poll s = .next t ∧
      t.responses = s.responses ++ [responseWord x 0 (pollWord s.pending s.reportedLen s.fatal s.ovf) 0] := by
  cases hf : s.fatal with
  | true => exact ⟨_, _, exec_poll_fatal h hf, by rw [← hf]; rfl⟩
  | false => exact ⟨_, _, exec_poll_live h hf, by rw [← hf]; rfl⟩

/-- POLL's avail and fatal bits stand at bits 32 and 34 of the response word (R108, R111). -/
theorem poll_response_bits {pending : Nat} (hp : pending < 256) (x : Status) (len : Byte) (fatal ovf : Bool) :
    let r := responseWord x 0 (pollWord pending len fatal ovf) 0
    r.toNat / 2 ^ 32 % 2 = (decide (pending > 0)).toNat ∧ r.toNat / 2 ^ 34 % 2 = fatal.toNat := by
  have havail := (decide (pending > 0)).toNat_lt
  have hovf := ovf.toNat_lt
  have hfatal := fatal.toNat_lt
  dsimp only
  rw [responseWord_toNat, pollWord_toNat hp]
  omega

/-- Settles O58: the outputs are the fields they read, and POLL packs the same two. -/
theorem levelOutputsShowFatalAndPending : Obligations.LevelOutputsShowFatalAndPending := by
  unfold Obligations.LevelOutputsShowFatalAndPending
  intro s
  refine ⟨Iff.rfl, decide_eq_true_iff, fun h => ?_⟩
  have hpending : s.pending < 256 := (h.pendingLe.trans s.cfg.nbuf_le).trans_lt (by decide)
  obtain ⟨t, x, hexec, hresponses⟩ := exec_poll_responses h
  obtain ⟨havail, hfatal⟩ := poll_response_bits hpending x s.reportedLen s.fatal s.ovf
  exact ⟨t, _, hexec, hresponses, havail, hfatal⟩

end Sys2Proof.Machine
end

section
/-! Proofs for the family 20_memory.md: what a receive event does to the ring, the queue of pending frames, and where the
module address is read. -/

namespace Sys2Proof.Machine

open Sys2Proof.Claims

/-! ### What a receive operation does to the ring -/

/-- The memory `m` differs from the state's only in buffer `wr`, and only while the ring is not full (R64, R71). -/
def State.WrittenInWr (s : State) (m : Memory) : Prop :=
  ∀ a, m.read a ≠ s.buf.read a → s.pending < s.cfg.nbuf ∧ ∃ o, o < s.cfg.buflen ∧ a = cellKey s.wr o

/-- All a receive operation does to the ring: bytes of the free buffer `wr` change, and the queue is as before or takes
that buffer with its length at its end (R64, R143). -/
structure RingEffect (s t : State) : Prop where
  cfg : t.cfg = s.cfg
  rd : t.rd = s.rd
  bytes : s.WrittenInWr t.buf
  queue : (t.pending = s.pending ∧ t.flen = s.flen) ∨
    (s.pending < s.cfg.nbuf ∧ t.pending = s.pending + 1 ∧ ∃ len, t.flen = s.flen.set s.wr len)

theorem State.writtenInWr_self (s : State) : s.WrittenInWr s.buf := fun _ hne => absurd rfl hne

theorem RingEffect.refl (s : State) : RingEffect s s := ⟨rfl, rfl, s.writtenInWr_self, .inl ⟨rfl, rfl⟩⟩

theorem State.writtenInWr_write {s : State} {o : Nat} (hfree : s.pending < s.cfg.nbuf) (ho : o < s.cfg.buflen)
    (c : Byte) : s.WrittenInWr (s.buf.write (cellKey s.wr o) c) := by
  intro a hne
  have ha : a = cellKey s.wr o := by
    by_contra hother
    exact hne (read_write_other _ c hother)
  exact ⟨hfree, o, ho, ha⟩

/-- Store enable is set only with a buffer free, so a content byte goes into buffer `wr` while it is free. -/
theorem State.writtenInWr_store {s : State} {sten : Bool} {o : Nat} (hsten : sten = true → s.pending < s.cfg.nbuf)
    (ho : o < s.cfg.buflen) (c : Byte) :
    s.WrittenInWr (if sten then s.buf.write (cellKey s.wr o) c else s.buf) := by
  cases sten with
  | false => exact s.writtenInWr_self
  | true => exact s.writtenInWr_write (hsten rfl) ho c

/-- R141: a rejected frame, a frame of one byte stored or dropped, and the start of a longer one. -/
theorem firstContent_ringEffect {s t : State} {c : Byte} (h : s.Inv) (ht : s.firstContent c = .ok t) :
    RingEffect s t := by
  rw [firstContent_eq h] at ht
  injection ht with ht
  subst ht
  have hoffset : 0 < s.cfg.buflen := Nat.zero_lt_two.trans_le s.cfg.buflen_ge
  dsimp only
  split
  · exact ⟨rfl, rfl, s.writtenInWr_self, .inl ⟨rfl, rfl⟩⟩
  · split
    · split
      · have hfree := of_decide_eq_true ‹_›
        exact ⟨rfl, rfl, s.writtenInWr_write hfree hoffset c, .inr ⟨hfree, rfl, _, rfl⟩⟩
      · exact ⟨rfl, rfl, s.writtenInWr_self, .inl ⟨rfl, rfl⟩⟩
    · exact ⟨rfl, rfl, s.writtenInWr_store of_decide_eq_true hoffset c, .inl ⟨rfl, rfl⟩⟩

/-- R142: the frame's last byte, stored or dropped, and one before it. -/
theorem laterContent_ringEffect {s t : State} {c : Byte} (h : s.Inv) (hst : s.st = .reading)
    (ht : s.laterContent c = .ok t) : RingEffect s t := by
  rw [laterContent_eq h hst] at ht
  injection ht with ht
  subst ht
  obtain ⟨-, hposlt, hle⟩ := h.readingPos hst
  have hsten := h.readingSten hst
  have hoffset := hposlt.trans_le hle
  dsimp only
  split
  · split
    · exact ⟨rfl, rfl, s.writtenInWr_write (hsten ‹_›) hoffset c, .inr ⟨hsten ‹_›, rfl, _, rfl⟩⟩
    · exact ⟨rfl, rfl, s.writtenInWr_self, .inl ⟨rfl, rfl⟩⟩
  · exact ⟨rfl, rfl, s.writtenInWr_store hsten hoffset c, .inl ⟨rfl, rfl⟩⟩

theorem content_ringEffect {s t : State} {c : Byte} (h : s.Inv) (ht : s.content c = .ok t) : RingEffect s t := by
  unfold State.content at ht
  split at ht
  · exact firstContent_ringEffect h ht
  · exact laterContent_ringEffect h ‹_› ht
  · cases ht
  · cases ht

/-- The frame of R139 touches the window and `fatal` only, so the middle part decides. -/
theorem onRx_ringEffect {m : State → Except Fault RxDone} {s t : State}
    (hm : ∀ d, m s = .ok d → RingEffect s d.state) (h : onRx m s = .next t) : RingEffect s t := by
  rcases onRx_cases h with ⟨-, rfl⟩ | ⟨-, -, rfl⟩ | ⟨-, -, d, hd, rfl⟩
  · exact .refl t
  · exact ⟨rfl, rfl, s.writtenInWr_self, .inl ⟨rfl, rfl⟩⟩
  · obtain ⟨hcfg, hrd, hbytes, hqueue⟩ := hm d hd
    exact ⟨hcfg, hrd, hbytes, hqueue⟩

theorem onRx_noFailure_ringEffect {f : State → Except Fault State} {s t : State}
    (hf : ∀ u, f s = .ok u → RingEffect s u) (h : onRx (fun v => noFailure (f v)) s = .next t) : RingEffect s t := by
  refine onRx_ringEffect (fun d hd => ?_) h
  obtain ⟨u, hu, rfl⟩ := noFailure_cases hd
  exact hf u hu

/-- Only the operations that hand over a content byte reach the ring (R134, R136, R137). -/
theorem exec_receive_ringEffect {i : Instr} {s t : State} (h : s.Inv) (hi : i.isReceive = true)
    (ht : exec i s = .next t) : RingEffect s t := by
  cases i with
  | rxerr | rxescbad =>
    simp only [exec, execRxerr, execRxescbad] at ht
    exact onRx_ringEffect (fun d hd => by cases hd; exact ⟨rfl, rfl, s.writtenInWr_self, .inl ⟨rfl, rfl⟩⟩) ht
  | rxstart | rxskip | rxesc =>
    simp only [exec, execRxstart, execRxskip, execRxesc] at ht
    refine onRx_noFailure_ringEffect (fun u hu => ?_) ht
    cases hu
    exact ⟨rfl, rfl, s.writtenInWr_self, .inl ⟨rfl, rfl⟩⟩
  | rxesc0 | rxesc1 =>
    simp only [exec, execRxesc0, execRxesc1] at ht
    refine onRx_noFailure_ringEffect (fun u hu => ?_) ht
    obtain ⟨hcfg, hrd, hbytes, hqueue⟩ := content_ringEffect h.closeEscape hu
    exact ⟨hcfg, hrd, hbytes, hqueue⟩
  | rxlit =>
    simp only [exec, execRxlit] at ht
    exact onRx_noFailure_ringEffect (fun u hu => content_ringEffect h hu) ht
  | _ => cases hi

/-- What a step on a receive event does to the ring. -/
theorem step_rx_ringEffect {s t : State} {x : XWord} {rest : List Input} (h : s.Inv) (hin : s.inputs = .rx x :: rest)
    (hstep : step s = .next t) : RingEffect s t := by
  rcases step_cases hstep with ⟨hno, -⟩ | ⟨_, hno, -⟩ | ⟨_, rest, -, hrx⟩ | ⟨_, _, hno, -⟩
  · simp [hin] at hno
  · simp [hin] at hno
  · rcases hrx with ⟨-, rfl⟩ | ⟨-, hcorrupt, -⟩ | ⟨-, -, i, -, hi, -, hexec⟩
    · exact ⟨rfl, rfl, s.writtenInWr_self, .inl ⟨rfl, rfl⟩⟩
    · exact absurd hcorrupt h.notCorrupt
    · obtain ⟨hcfg, hrd, hbytes, hqueue⟩ := exec_receive_ringEffect (h.takeInputs rest) hi hexec
      exact ⟨hcfg, hrd, hbytes, hqueue⟩
  · simp [hin] at hno

/-! ### Pending buffers under a receive event -/

namespace RingEffect

variable {s t : State}

theorem pendingBuffer_eq (e : RingEffect s t) (j : Nat) : t.pendingBuffer j = s.pendingBuffer j := by
  rw [State.pendingBuffer, State.pendingBuffer, e.rd, e.cfg]

/-- A length is written at `wr` only, which is no pending buffer then. -/
theorem lenAt_pendingBuffer (e : RingEffect s t) (h : s.Inv) {j : Nat} (hj : j < s.pending) :
    t.lenAt (s.pendingBuffer j) = s.lenAt (s.pendingBuffer j) := by
  rcases e.queue with ⟨-, hflen⟩ | ⟨hfree, -, len, hflen⟩
  · rw [State.lenAt, hflen, State.lenAt]
  · rw [State.lenAt, hflen, lenAt_set h.wr_lt_flen, if_neg (h.wr_not_pending hfree hj)]

/-- A byte that changed would put the pending buffer at the write cursor, the ring not being full. -/
theorem cell_pendingBuffer (e : RingEffect s t) (h : s.Inv) {j o : Nat} (hj : j < s.pending) (ho : o < s.cfg.buflen) :
    t.cell (s.pendingBuffer j) o = s.cell (s.pendingBuffer j) o := by
  have hbuflen := s.cfg.buflen_le
  by_contra hne
  obtain ⟨hfree, o', ho', hkey⟩ := e.bytes _ hne
  have hwr : s.pendingBuffer j = s.wr := ((cellKey_inj (by omega) (by omega)).1 hkey).1
  exact h.wr_not_pending hfree hj hwr

theorem frameAt_eq (e : RingEffect s t) (h : s.Inv) {j : Nat} (hj : j < s.pending) : frameAt t j = frameAt s j := by
  unfold frameAt
  rw [e.pendingBuffer_eq, e.lenAt_pendingBuffer h hj]
  refine List.map_congr_left fun o ho => e.cell_pendingBuffer h hj ?_
  exact (List.mem_range.1 ho).trans_le (h.pendingLen j hj).2

/-- The frames pending before are the same frames after. -/
theorem map_frameAt (e : RingEffect s t) (h : s.Inv) : (List.range s.pending).map (frameAt t) = frames s :=
  List.map_congr_left fun _ hj => e.frameAt_eq h (List.mem_range.1 hj)

end RingEffect

/-- Settles O21: the bytes that change lie in buffer `wr`, and while any may change that buffer is not pending. -/
theorem pendingFramesUntouchedByReceiveEvents : Obligations.PendingFramesUntouchedByReceiveEvents := by
  unfold Obligations.PendingFramesUntouchedByReceiveEvents
  intro s t x rest h hin hstep
  have e := step_rx_ringEffect h hin hstep
  exact ⟨fun a hne => (e.bytes a hne).2, fun j hj =>
    ⟨e.pendingBuffer_eq j, e.lenAt_pendingBuffer h hj, fun o ho => e.cell_pendingBuffer h hj ho⟩⟩

/-! ### The queue of pending frames -/

/-- Under the invariants no pending frame is empty (R40 (h)). -/
theorem State.Inv.frameAt_ne_nil {s : State} (h : s.Inv) {j : Nat} (hj : j < s.pending) : frameAt s j ≠ [] := by
  have hlen : (frameAt s j).length = (s.lenAt (s.pendingBuffer j)).toNat := by simp [frameAt]
  exact List.ne_nil_of_length_pos (hlen ▸ (h.pendingLen j hj).1)

/-- A receive event leaves the queue as it was or puts one frame that is not empty at its end. -/
theorem step_rx_frames {s t : State} {x : XWord} {rest : List Input} (h : s.Inv) (hin : s.inputs = .rx x :: rest)
    (hstep : step s = .next t) : frames t = frames s ∨ ∃ p, p ≠ [] ∧ frames t = frames s ++ [p] := by
  have e := step_rx_ringEffect h hin hstep
  have htInv : t.Inv := stepKeepsInvariant s t h hstep
  rcases e.queue with ⟨hpending, -⟩ | ⟨-, hpending, -⟩
  · left
    rw [frames, hpending, e.map_frameAt h]
  · right
    refine ⟨frameAt t s.pending, htInv.frameAt_ne_nil (by omega), ?_⟩
    rw [frames, hpending, List.range_succ, List.map_append, e.map_frameAt h, List.map_singleton]

/-- RELEASE takes the first frame off the queue (R175): every later one moves up by one place. -/
theorem frames_released (s : State) :
    frames { s with rd := nextCursor s.cfg s.rd, pending := s.pending - 1 } = (frames s).tail := by
  have hshift : ∀ j, frameAt { s with rd := nextCursor s.cfg s.rd, pending := s.pending - 1 } j = frameAt s (1 + j) := by
    intro j
    rw [frameAt, pendingBuffer_released, Nat.add_comm j 1]
    rfl
  calc frames { s with rd := nextCursor s.cfg s.rd, pending := s.pending - 1 }
      = (List.range (s.pending - 1)).map fun j => frameAt s (1 + j) := List.map_congr_left fun j _ => hshift j
    _ = (List.range s.pending).tail.map (frameAt s) := by
        rw [List.tail_range, List.range'_eq_map_range, List.map_map]
        rfl
    _ = (frames s).tail := List.map_tail

/-- A command leaves the queue as it was, or is a RELEASE of a block that is not fatal. -/
theorem step_command_frames {s t : State} {c : CWord} {rest : List Input} (hin : s.inputs = .cmd c :: rest)
    (hstep : step s = .next t) :
    frames t = frames s ∨ (opNat c = 0x03 ∧ s.fatal = false ∧ frames t = (frames s).tail) := by
  rcases step_command_cases hin hstep with ⟨row, hrow, hop, u, x, r0, r1, fl, heffect, rfl⟩ | rfl
  · have hrowCode := row_of_opField hrow hop (aField c) (bField c)
    generalize row.2 (aField c) (bField c) = i at heffect hrowCode
    cases heffect with
    | released hf hp => exact .inr ⟨hrowCode, hf, frames_released s⟩
    | unchanged | overflowCleared | addressSet | calWritten => exact .inl rfl
  · exact .inl rfl

/-- Settles O55, by the kind of the input. -/
theorem pendingFramesFormFifo : Obligations.PendingFramesFormFifo := by
  unfold Obligations.PendingFramesFormFifo
  intro s t h hstep
  rcases hin : s.inputs with _ | ⟨x | c | _, rest⟩
  · rw [step_idle hin] at hstep
    injection hstep with ht
    exact .inl (congrArg frames ht.symm)
  · rcases step_rx_frames h hin hstep with hsame | ⟨p, hp, happend⟩
    · exact .inl hsame
    · exact .inr (.inl ⟨x, p, rfl, hp, happend⟩)
  · rcases step_command_frames hin hstep with hsame | ⟨hop, hf, htail⟩
    · exact .inl hsame
    · exact .inr (.inr (.inl ⟨c, rfl, hop, hf, htail⟩))
  · rw [step_reset hin] at hstep
    injection hstep with ht
    exact .inr (.inr (.inr ⟨rfl, congrArg frames ht.symm⟩))

/-! ### The module address -/

/-- The state with another module address. -/
abbrev State.withMyaddr (s : State) (a : Byte) : State := { s with myaddr := a }

theorem storeContent_withMyaddr (s : State) (a : Byte) (o : Nat) (c : Byte) :
    (s.withMyaddr a).storeContent o c = (s.storeContent o c).map (·.withMyaddr a) := by
  unfold State.storeContent State.storeByte
  dsimp only
  split
  · split <;> rfl
  · rfl

theorem writeLen_withMyaddr (s : State) (a : Byte) (k : Nat) (l : Byte) :
    (s.withMyaddr a).writeLen k l = (s.writeLen k l).map (·.withMyaddr a) := by
  unfold State.writeLen
  dsimp only
  split <;> rfl

theorem complete_withMyaddr (s : State) (a : Byte) :
    (s.withMyaddr a).complete = s.complete.map (·.withMyaddr a) := by
  unfold State.complete
  rw [writeLen_withMyaddr]
  dsimp only
  split
  · cases s.writeLen s.wr s.explen <;> rfl
  · rfl

theorem laterContent_withMyaddr (s : State) (a : Byte) (c : Byte) :
    (s.withMyaddr a).laterContent c = (s.laterContent c).map (·.withMyaddr a) := by
  unfold State.laterContent
  rw [storeContent_withMyaddr]
  cases s.storeContent s.pos.toNat c with
  | error r => rfl
  | ok u =>
    dsimp only [Except.map]
    split
    · exact complete_withMyaddr { u with pos := u.pos + 1 } a
    · rfl

/-- Only the first content byte is matched against the module address (R76, R141). -/
theorem content_withMyaddr {s u : State} {c : Byte} (hst : s.st ≠ .gotStart) (hu : s.content c = .ok u) (a : Byte) :
    (s.withMyaddr a).content c = .ok (u.withMyaddr a) := by
  unfold State.content at hu ⊢
  split at hu
  · exact absurd ‹_› hst
  · have hreading : (s.withMyaddr a).st = .reading := ‹_›
    rw [hreading]
    dsimp only
    rw [laterContent_withMyaddr, hu]
    rfl
  · cases hu
  · cases hu

/-- The frame of R139 does not look at the module address. -/
theorem onRx_withMyaddr {m : State → Except Fault RxDone} {s t : State} {a : Byte}
    (hm : ∀ d, m s = .ok d → m (s.withMyaddr a) = .ok { d with state := d.state.withMyaddr a })
    (h : onRx m s = .next t) : onRx m (s.withMyaddr a) = .next (t.withMyaddr a) := by
  rcases onRx_cases h with ⟨hf, rfl⟩ | ⟨hf, hc, rfl⟩ | ⟨hf, hc, d, hd, rfl⟩
  · exact onRx_fatal (s := t.withMyaddr a) hf m
  · exact onRx_corrupt (s := s.withMyaddr a) hf hc m
  · exact onRx_live (s := s.withMyaddr a) hf hc (hm d hd)

theorem onRx_noFailure_withMyaddr {f : State → Except Fault State} {s t : State} {a : Byte}
    (hf : ∀ u, f s = .ok u → f (s.withMyaddr a) = .ok (u.withMyaddr a))
    (h : onRx (fun v => noFailure (f v)) s = .next t) :
    onRx (fun v => noFailure (f v)) (s.withMyaddr a) = .next (t.withMyaddr a) := by
  refine onRx_withMyaddr (fun d hd => ?_) h
  obtain ⟨u, hu, rfl⟩ := noFailure_cases hd
  rw [hf u hu]
  rfl

/-- Settles O27, by the operation: outside GOT_START no content byte is a first one. -/
theorem moduleAddressReadOnFirstContentByteOnly : Obligations.ModuleAddressReadOnFirstContentByteOnly := by
  unfold Obligations.ModuleAddressReadOnFirstContentByteOnly
  intro s t i a hi hst ht
  cases i with
  | rxerr | rxescbad =>
    simp only [exec, execRxerr, execRxescbad] at ht ⊢
    exact onRx_withMyaddr (fun d hd => by cases hd; rfl) ht
  | rxstart | rxskip | rxesc =>
    simp only [exec, execRxstart, execRxskip, execRxesc] at ht ⊢
    exact onRx_noFailure_withMyaddr (fun u hu => by cases hu; rfl) ht
  | rxesc0 | rxesc1 =>
    simp only [exec, execRxesc0, execRxesc1] at ht ⊢
    exact onRx_noFailure_withMyaddr (fun u hu => content_withMyaddr (s := { s with esc := false }) hst hu a) ht
  | rxlit =>
    simp only [exec, execRxlit] at ht ⊢
    exact onRx_noFailure_withMyaddr (fun u hu => content_withMyaddr hst hu a) ht
  | _ => cases hi

end Sys2Proof.Machine
end

section
/-! Proofs for the family 30_encoding.md: decoding and encoding, the one response of a command, that no step stops, and
an accepted frame from its START_MARK to the queue of pending frames. -/

namespace Sys2Proof

open Sys2Proof.Machine Sys2Proof.Claims

/-- Settles O1: each word evaluates to its operation. -/
theorem sampleWordsDecode : Obligations.SampleWordsDecode := by
  unfold Obligations.SampleWordsDecode
  decide

/-! ### The lines of R96 -/

/-- No error flag is set (R92), in the claims' terms. -/
theorem xFlags_eq_zero_iff (x : XWord) : xFlags x = 0 ↔ x.toNat / 256 = 0 := by
  rw [← xFlags_toNat, BitVec.toNat_eq]
  rfl

section Lines

variable {w : Wire} {c : RxContext} {x : XWord} {d : Byte}

theorem decodeRx_fatal (hf : c.fatal = true) : decodeRx w c x = .rejected .fatalIgnored := if_pos hf

theorem decodeRx_corrupt (hf : c.fatal = false) (hc : c.st = .corrupt) :
    decodeRx w c x = .rejected .corruptState := by
  simp [decodeRx, hf, hc]

theorem decodeRx_error (hf : c.fatal = false) (hc : c.st ≠ .corrupt) (hx : xFlags x ≠ 0) :
    decodeRx w c x = .op (.rxerr (xFlags x) (xData x)) := by
  simp only [decodeRx, hf, hc, hx, Bool.false_eq_true, ↓reduceIte, ne_eq, not_false_eq_true]

variable (hf : c.fatal = false) (hc : c.st ≠ .corrupt) (hx : xFlags x = 0) (hd : xData x = d)
include hf hx hd

theorem decodeRx_idle (hs : d ≠ w.startMark) (hst : c.st = .idle) : decodeRx w c x = .op (.rxskip d) := by
  simp [decodeRx, hf, hx, hd, hs, hst]

include hc

theorem decodeRx_startMark (hs : d = w.startMark) : decodeRx w c x = .op .rxstart := by
  simp [decodeRx, hf, hc, hx, hd, hs]

variable (hs : d ≠ w.startMark) (hst : c.st ≠ .idle)
include hs hst

theorem decodeRx_escCode0 (hesc : c.esc = true) (h0 : d = w.escCode0) : decodeRx w c x = .op .rxesc0 := by
  simp [decodeRx, hf, hc, hx, hd, hs, hst, hesc, ← h0]

theorem decodeRx_escCode1 (hesc : c.esc = true) (h0 : d ≠ w.escCode0) (h1 : d = w.escCode1) :
    decodeRx w c x = .op .rxesc1 := by
  simp [decodeRx, hf, hc, hx, hd, hs, hst, hesc, h0, ← h1]

theorem decodeRx_escBad (hesc : c.esc = true) (h0 : d ≠ w.escCode0) (h1 : d ≠ w.escCode1) :
    decodeRx w c x = .op (.rxescbad d) := by
  simp [decodeRx, hf, hc, hx, hd, hs, hst, hesc, h0, h1]

theorem decodeRx_escapeMark (hesc : c.esc = false) (hm : d = w.escapeMark) : decodeRx w c x = .op .rxesc := by
  simp [decodeRx, hf, hc, hx, hd, hs, hst, hesc, ← hm]

theorem decodeRx_literal (hesc : c.esc = false) (hm : d ≠ w.escapeMark) : decodeRx w c x = .op (.rxlit d) := by
  simp [decodeRx, hf, hc, hx, hd, hs, hst, hesc, hm]

end Lines

/-- Settles O2, line by line. -/
theorem receiveWordSelectsFirstApplicableLine : Obligations.ReceiveWordSelectsFirstApplicableLine := by
  unfold Obligations.ReceiveWordSelectsFirstApplicableLine
  intro w c x
  simp only [ne_eq, ← xFlags_eq_zero_iff]
  refine ⟨decodeRx_fatal, decodeRx_corrupt, decodeRx_error, fun hf hc hx => ?_⟩
  exact ⟨decodeRx_startMark hf hc hx rfl, decodeRx_idle hf hx rfl,
    fun hs hst hesc => ⟨decodeRx_escCode0 hf hc hx rfl hs hst hesc, decodeRx_escCode1 hf hc hx rfl hs hst hesc,
      decodeRx_escBad hf hc hx rfl hs hst hesc⟩,
    fun hs hst hesc => ⟨decodeRx_escapeMark hf hc hx rfl hs hst hesc, decodeRx_literal hf hc hx rfl hs hst hesc⟩⟩

/-! ### Decoding what the encoder gives -/

theorem RxContext.live_iff (c : RxContext) : c.live = true ↔ c.fatal = false ∧ c.st ≠ .corrupt := by
  simp [RxContext.live]

theorem DecSt.ne_idle_of_inFrame {st : DecSt} (h : st.inFrame = true) : st ≠ .idle := by
  rintro rfl
  cases h

/-- The `state_condition` of the five operations of R96's last lines, with what they ask of `esc`. -/
theorem RxContext.inFrame_conditions {c : RxContext} {e : Bool} (h : (c.live && c.st.inFrame && e) = true) :
    c.fatal = false ∧ c.st ≠ .corrupt ∧ c.st ≠ .idle ∧ e = true := by
  simp only [Bool.and_eq_true] at h
  obtain ⟨⟨hlive, hframe⟩, he⟩ := h
  obtain ⟨hf, hc⟩ := c.live_iff.1 hlive
  exact ⟨hf, hc, DecSt.ne_idle_of_inFrame hframe, he⟩

/-- The word of a receive operation decodes to it wherever the operation can be selected. -/
theorem decode_encode_receive {w : Wire} {c : RxContext} {i : Instr} (hi : i.isReceive = true) (hw : w.legal = true)
    (hwf : i.wf w = true) (hsel : i.selectableIn c = true) : decodeInput w c (encode w i) = .op i := by
  obtain ⟨hmarks, hcode0, hcode1, hcodes, -⟩ := w.legal_iff.1 hw
  cases i with
  | rxerr flags data =>
    obtain ⟨hf, hc⟩ := c.live_iff.1 hsel
    have hflags : xFlags (flags ++ data) ≠ 0 := by rw [xFlags_append]; exact bne_iff_ne.1 hwf
    refine (decodeRx_error hf hc hflags).trans ?_
    rw [xFlags_append, xData_append]
  | rxstart =>
    obtain ⟨hf, hc⟩ := c.live_iff.1 hsel
    exact decodeRx_startMark hf hc (xFlags_xByte _) (xData_xByte _) rfl
  | rxskip data =>
    obtain ⟨hlive, hst⟩ := Bool.and_eq_true_iff.1 hsel
    obtain ⟨hf, -⟩ := c.live_iff.1 hlive
    exact decodeRx_idle hf (xFlags_xByte _) (xData_xByte _) (bne_iff_ne.1 hwf) (beq_iff_eq.1 hst)
  | rxesc0 =>
    obtain ⟨hf, hc, hst, hesc⟩ := RxContext.inFrame_conditions hsel
    exact decodeRx_escCode0 hf hc (xFlags_xByte _) (xData_xByte _) hcode0 hst hesc rfl
  | rxesc1 =>
    obtain ⟨hf, hc, hst, hesc⟩ := RxContext.inFrame_conditions hsel
    exact decodeRx_escCode1 hf hc (xFlags_xByte _) (xData_xByte _) hcode1 hst hesc hcodes.symm rfl
  | rxescbad data =>
    obtain ⟨hf, hc, hst, hesc⟩ := RxContext.inFrame_conditions hsel
    simp only [Instr.wf, Bool.and_eq_true, bne_iff_ne] at hwf
    obtain ⟨⟨h0, h1⟩, hs⟩ := hwf
    exact decodeRx_escBad hf hc (xFlags_xByte _) (xData_xByte _) hs hst hesc h0 h1
  | rxesc =>
    obtain ⟨hf, hc, hst, hesc⟩ := RxContext.inFrame_conditions hsel
    exact decodeRx_escapeMark hf hc (xFlags_xByte _) (xData_xByte _) hmarks.symm hst ((Bool.not_eq_true' _).mp hesc) rfl
  | rxlit data =>
    obtain ⟨hf, hc, hst, hesc⟩ := RxContext.inFrame_conditions hsel
    simp only [Instr.wf, Bool.and_eq_true, bne_iff_ne] at hwf
    obtain ⟨hs, hm⟩ := hwf
    exact decodeRx_literal hf hc (xFlags_xByte _) (xData_xByte _) hs hst ((Bool.not_eq_true' _).mp hesc) hm
  | _ => cases hi

/-- A command word built from a listed code decodes by that code's row. -/
theorem decodeCmd_cWord {op : Byte} {f : Word → Word → Instr} (hop : opcodeMap.lookup op = some f) (a b : Word) :
    decodeCmd (cWord op a b) = .op (f a b) := by
  have h := decodeCmd_of_lookup (c := cWord op a b) (f := f) (by rwa [opField_cWord])
  rwa [aField_cWord, bField_cWord] at h

/-- A narrow operand is read back from the low bits it was put into (R106). -/
theorem extractLsb'_setWidth_self {n m : Nat} (h : n ≤ m) (v : BitVec n) : (v.setWidth m).extractLsb' 0 n = v := by
  rw [BitVec.extractLsb'_setWidth_of_le (by omega), BitVec.extractLsb'_eq_self]

/-- The word of a command decodes to it in every decoder state. -/
theorem decode_encode_command {w : Wire} {c : RxContext} {i : Instr} (hi : i.isReceive = false) :
    decodeInput w c (encode w i) = .op i := by
  cases i with
  | nop => exact decodeCmd_cWord (op := 0x00) rfl 0 0
  | poll => exact decodeCmd_cWord (op := 0x01) rfl 0 0
  | release => exact decodeCmd_cWord (op := 0x03) rfl 0 0
  | rdbyte o =>
    refine (decodeCmd_cWord (op := 0x02) rfl _ _).trans ?_
    rw [extractLsb'_setWidth_self (by decide)]
  | setaddr addr =>
    refine (decodeCmd_cWord (op := 0x04) rfl _ _).trans ?_
    rw [extractLsb'_setWidth_self (by decide)]
  | calw index value =>
    refine (decodeCmd_cWord (op := 0x10) rfl _ _).trans ?_
    rw [extractLsb'_setWidth_self (by decide)]
  | calr index =>
    refine (decodeCmd_cWord (op := 0x11) rfl _ _).trans ?_
    rw [extractLsb'_setWidth_self (by decide)]
  | correct x y lum =>
    refine (decodeCmd_cWord (op := 0x12) rfl _ _).trans ?_
    rw [BitVec.extractLsb'_append_eq_left, BitVec.extractLsb'_append_eq_right, extractLsb'_setWidth_self (by decide)]
  | qadd => exact decodeCmd_cWord (op := 0x20) rfl _ _
  | qsub => exact decodeCmd_cWord (op := 0x21) rfl _ _
  | qmul => exact decodeCmd_cWord (op := 0x22) rfl _ _
  | qdiv => exact decodeCmd_cWord (op := 0x23) rfl _ _
  | qcmp => exact decodeCmd_cWord (op := 0x24) rfl _ _
  | qmin => exact decodeCmd_cWord (op := 0x25) rfl _ _
  | qmax => exact decodeCmd_cWord (op := 0x26) rfl _ _
  | _ => cases hi

/-- Settles O4, by the kind of the operation. -/
theorem encodeThenDecodeIsIdentity : Obligations.EncodeThenDecodeIsIdentity := by
  unfold Obligations.EncodeThenDecodeIsIdentity
  intro w c i hw hwf hsel
  cases hi : i.isReceive with
  | true => exact decode_encode_receive hi hw hwf hsel
  | false => exact decode_encode_command hi

/-! ### What is decoded -/

/-- A receive event is decoded to an operation in a live decoder state only (R96). -/
theorem live_of_decodeRx_op {w : Wire} {c : RxContext} {x : XWord} {i : Instr} (h : decodeRx w c x = .op i) :
    c.fatal = false ∧ c.st ≠ .corrupt := by
  cases hf : c.fatal with
  | true => rw [decodeRx_fatal hf] at h; cases h
  | false =>
    refine ⟨rfl, fun hc => ?_⟩
    rw [decodeRx_corrupt hf hc] at h
    cases h

/-- A command has no value condition (R112). -/
theorem wf_of_command {i : Instr} (hi : i.isReceive = false) (w : Wire) : i.wf w = true := by
  cases i with
  | rxerr | rxstart | rxskip | rxesc0 | rxesc1 | rxescbad | rxesc | rxlit => cases hi
  | _ => rfl

/-- Settles O5: for an X word `decodeRx_live` says it, for a C word the rows of the opcode map are commands. -/
theorem decodedOperationIsWellFormed : Obligations.DecodedOperationIsWellFormed := by
  unfold Obligations.DecodedOperationIsWellFormed
  intro w c i
  constructor
  · intro x h
    obtain ⟨hf, hc⟩ := live_of_decodeRx_op h
    obtain ⟨j, hj, hreceive, hwf, hsel⟩ := decodeRx_live (w := w) hf hc x
    obtain rfl := Decoded.op.inj (hj.symm.trans h)
    exact ⟨hwf, hsel, hreceive⟩
  · intro k h
    have hcmd : i.isReceive = false := by
      rcases decodeCmd_cases k with ⟨row, hrow, -, hk⟩ | ⟨-, hk⟩
      · obtain rfl := Decoded.op.inj (hk.symm.trans h)
        exact opcodeMap_isReceive hrow _ _
      · cases hk.symm.trans h
    exact ⟨wf_of_command hcmd w, hcmd⟩

/-! ### The fields of a command word as numbers -/

theorem opField_eq (c : CWord) : opField c = BitVec.ofNat 8 (opNat c) := by
  rw [opNat, ← opField_toNat, BitVec.ofNat_toNat, BitVec.setWidth_eq]

theorem aField_eq (c : CWord) : aField c = BitVec.ofNat 32 (aNat c) := by
  rw [aNat, ← aField_toNat, BitVec.ofNat_toNat, BitVec.setWidth_eq]

theorem bField_eq (c : CWord) : bField c = BitVec.ofNat 32 (bNat c) := by
  rw [bNat, ← bField_toNat, BitVec.ofNat_toNat, BitVec.setWidth_eq]

/-- The low `n` bits of a number's `m`-bit word. -/
theorem extractLsb'_ofNat_low {n m : Nat} (h : n ≤ m) (k : Nat) :
    (BitVec.ofNat m k).extractLsb' 0 n = BitVec.ofNat n k := by
  rw [← BitVec.setWidth_eq_extractLsb' h, BitVec.setWidth_ofNat_of_le h]

/-- The upper half of a number's 32-bit word: CORRECT's `x` (R106). -/
theorem extractLsb'_ofNat_high (k : Nat) : (BitVec.ofNat 32 k).extractLsb' 16 16 = BitVec.ofNat 16 (k / 65536) := by
  apply BitVec.eq_of_toNat_eq
  rw [BitVec.extractLsb'_toNat, BitVec.toNat_ofNat, BitVec.toNat_ofNat, Nat.shiftRight_eq_div_pow]
  omega

/-- A command word whose code the opcode map lists decodes by that code's row (R100, R101). -/
theorem decodeCmd_of_opNat {c : CWord} {n : Nat} {f : Word → Word → Instr} (hn : opNat c = n)
    (hop : opcodeMap.lookup (BitVec.ofNat 8 n) = some f) :
    decodeCmd c = .op (f (BitVec.ofNat 32 (aNat c)) (BitVec.ofNat 32 (bNat c))) := by
  rw [← aField_eq, ← bField_eq]
  exact decodeCmd_of_lookup (by rwa [opField_eq, hn])

/-- The codes of R101 are the map's. -/
theorem opcodes_eq_map : opcodes = opcodeMap.map fun row => row.1.toNat := rfl

/-- A command word has a code of R101 exactly when a row of the map takes it. -/
theorem opNat_mem_opcodes_iff (c : CWord) : opNat c ∈ opcodes ↔ ∃ row ∈ opcodeMap, opField c = row.1 := by
  rw [opcodes_eq_map, opNat, ← opField_toNat, List.mem_map]
  simp only [BitVec.toNat_eq, eq_comm]

/-- A reserved `op` is rejected by name (R112). -/
theorem decodeCmd_reserved {c : CWord} (hop : opNat c ∉ opcodes) :
    decodeCmd c = .rejected (.reservedOp (opField c)) := by
  rcases decodeCmd_cases c with ⟨row, hrow, hcode, -⟩ | ⟨-, hdecode⟩
  · exact absurd ((opNat_mem_opcodes_iff c).2 ⟨row, hrow, hcode⟩) hop
  · exact hdecode

/-- Settles O3: the map's row for each code, its operand slices as numbers. -/
theorem commandWordDecodesByOpcodeMap : Obligations.CommandWordDecodesByOpcodeMap := by
  unfold Obligations.CommandWordDecodesByOpcodeMap
  intro c
  have hbyte := extractLsb'_ofNat_low (n := 8) (m := 32) (by decide)
  have hindex := extractLsb'_ofNat_low (n := 4) (m := 32) (by decide)
  have hhalf := extractLsb'_ofNat_low (n := 16) (m := 32) (by decide)
  refine ⟨fun h => decodeCmd_of_opNat h rfl, fun h => decodeCmd_of_opNat h rfl, fun h => ?_,
    fun h => decodeCmd_of_opNat h rfl, fun h => ?_, fun h => ?_, fun h => ?_, fun h => ?_,
    fun h => decodeCmd_of_opNat h rfl, fun h => decodeCmd_of_opNat h rfl, fun h => decodeCmd_of_opNat h rfl,
    fun h => decodeCmd_of_opNat h rfl, fun h => decodeCmd_of_opNat h rfl, fun h => decodeCmd_of_opNat h rfl,
    fun h => decodeCmd_of_opNat h rfl, fun h => ?_⟩
  · rw [← hbyte]; exact decodeCmd_of_opNat h rfl
  · rw [← hbyte]; exact decodeCmd_of_opNat h rfl
  · rw [← hindex]; exact decodeCmd_of_opNat h rfl
  · rw [← hindex]; exact decodeCmd_of_opNat h rfl
  · rw [← extractLsb'_ofNat_high, ← hhalf, ← hhalf]; exact decodeCmd_of_opNat h rfl
  · rw [← opField_eq]; exact decodeCmd_reserved h

/-- Settles O7: the reserved answer as the claims render it, and a row of the map for every other code. -/
theorem reservedOpAnswersWrongCommand : Obligations.ReservedOpAnswersWrongCommand := by
  unfold Obligations.ReservedOpAnswersWrongCommand
  constructor
  · intro s c rest hin hop
    rw [step_cmd_reserved hin (decodeCmd_reserved hop), respond_eq_answered]
    rfl
  · intro c hop
    rcases decodeCmd_cases c with ⟨row, hrow, -, hdecode⟩ | ⟨hnone, -⟩
    · exact ⟨_, hdecode, opcodeMap_isReceive hrow _ _⟩
    · obtain ⟨row, hrow, hcode⟩ := (opNat_mem_opcodes_iff c).1 hop
      exact absurd hcode (hnone row hrow)

end Sys2Proof

namespace Sys2Proof.Machine

open Sys2Proof.Claims

/-! ### The one response of a command -/

/-- The status codes the block returns (R109). -/
def returnedCodes : List Nat := [0x00, 0x01, 0x02, 0x03, 0x05, 0x08, 0x09]

/-- The outcome is a next state with exactly one response more than `s`, with a status the block returns and flag bits
7:3 zero (R108 to R110). -/
def AnsweredOnce (s : State) (o : Answer) : Prop :=
  ∃ t r, o = .next t ∧ t.responses = s.responses ++ [r] ∧
    r.toNat / 2 ^ 72 ∈ returnedCodes ∧ r.toNat / 2 ^ 64 % 256 < 8

/-- The status and the flags stand at the top of the response word (R108). -/
theorem responseWord_top (x : Status) (fl : Byte) (r0 r1 : Word) :
    (responseWord x fl r0 r1).toNat / 2 ^ 72 = (statusCode x).toNat ∧
    (responseWord x fl r0 r1).toNat / 2 ^ 64 % 256 = fl.toNat := by
  have hfl := fl.isLt
  have hr0 := r0.isLt
  have hr1 := r1.isLt
  rw [responseWord_toNat]
  omega

/-- Flag bits 7:3 are zero (R110). -/
theorem flagsByte_lt (sat divz degen : Bool) : (flagsByte sat divz degen).toNat < 8 := by
  cases sat <;> cases divz <;> cases degen <;> decide

/-- Returning one response word answers once; `u` may differ from `s` in anything but the responses. -/
theorem answeredOnce_respond {s u : State} {x : Status} {r0 r1 : Word} {fl : Byte} (hu : u.responses = s.responses)
    (hx : (statusCode x).toNat ∈ returnedCodes) (hfl : fl.toNat < 8) :
    AnsweredOnce s (.next (u.respond x r0 r1 fl)) := by
  obtain ⟨hstatus, hflags⟩ := responseWord_top x fl r0 r1
  refine ⟨_, responseWord x fl r0 r1, rfl, ?_, ?_, ?_⟩
  · rw [respond_responses, hu]
  · rwa [hstatus]
  · rwa [hflags]

theorem execPoll_answeredOnce {s : State} (h : s.Inv) : AnsweredOnce s (execPoll s) := by
  cases hf : s.fatal with
  | true =>
    rw [show execPoll s = _ from exec_poll_fatal h hf]
    exact answeredOnce_respond rfl (by decide) (by decide)
  | false =>
    rw [show execPoll s = _ from exec_poll_live h hf]
    cases s.ovf <;> exact answeredOnce_respond rfl (by decide) (by decide)

/-- Every byte of the oldest pending frame can be read (R40 (h), R64). -/
theorem State.Inv.loadByte_rd {s : State} (h : s.Inv) (hp : s.pending ≠ 0) {o : Nat} (ho : o < (s.lenAt s.rd).toNat) :
    s.loadByte s.rd o = .ok (s.cell s.rd o) := by
  obtain ⟨-, hle⟩ := h.pendingLen 0 (Nat.pos_of_ne_zero hp)
  rw [h.pendingBuffer_zero] at hle
  exact if_pos ((cellExists_iff _ _ _).2 ⟨h.rdRange, ho.trans_le hle⟩)

theorem execRdbyte_answeredOnce {s : State} (h : s.Inv) (o : Byte) : AnsweredOnce s (execRdbyte o s) := by
  unfold execRdbyte
  rw [h.readLen_rd]
  split
  · exact answeredOnce_respond rfl (by decide) (by decide)
  · split
    · exact answeredOnce_respond rfl (by decide) (by decide)
    · dsimp only
      split
      · exact answeredOnce_respond rfl (by decide) (by decide)
      · rw [h.loadByte_rd ‹_› (Nat.lt_of_not_ge ‹_›)]
        exact answeredOnce_respond rfl (by decide) (by decide)

theorem execRelease_answeredOnce (s : State) : AnsweredOnce s (execRelease s) := by
  unfold execRelease
  split
  · exact answeredOnce_respond rfl (by decide) (by decide)
  · split
    · exact answeredOnce_respond rfl (by decide) (by decide)
    · exact answeredOnce_respond rfl (by decide) (by decide)

theorem execSetaddr_answeredOnce (a : Byte) (s : State) : AnsweredOnce s (execSetaddr a s) := by
  unfold execSetaddr
  split
  · exact answeredOnce_respond rfl (by decide) (by decide)
  · exact answeredOnce_respond rfl (by decide) (by decide)

theorem execCalw_answeredOnce (k : BitVec 4) (v : Word) (s : State) : AnsweredOnce s (execCalw k v s) := by
  unfold execCalw
  split
  · exact answeredOnce_respond rfl (by decide) (by decide)
  · exact answeredOnce_respond rfl (by decide) (by decide)

theorem execCalr_answeredOnce (k : BitVec 4) (s : State) : AnsweredOnce s (execCalr k s) := by
  unfold execCalr
  split
  · exact answeredOnce_respond rfl (by decide) (by decide)
  · split
    · exact answeredOnce_respond rfl (by decide) (by decide)
    · exact answeredOnce_respond rfl (by decide) (by decide)

theorem execCorrect_answeredOnce (x y lum : Half) (s : State) : AnsweredOnce s (execCorrect x y lum s) := by
  unfold execCorrect
  split
  · exact answeredOnce_respond rfl (by decide) (by decide)
  · exact answeredOnce_respond rfl (by decide) (flagsByte_lt _ _ _)

/-- Every command answers once, from every state that meets the invariants. -/
theorem exec_command_answeredOnce {s : State} (h : s.Inv) {i : Instr} (hi : i.isReceive = false) :
    AnsweredOnce s (exec i s) := by
  cases i with
  | poll => exact execPoll_answeredOnce h
  | rdbyte o => exact execRdbyte_answeredOnce h o
  | release => exact execRelease_answeredOnce s
  | setaddr a => exact execSetaddr_answeredOnce a s
  | calw k v => exact execCalw_answeredOnce k v s
  | calr k => exact execCalr_answeredOnce k s
  | correct x y lum => exact execCorrect_answeredOnce x y lum s
  | nop | qcmp | qmin | qmax => exact answeredOnce_respond rfl (by decide) (by decide)
  | qadd | qsub | qmul | qdiv => exact answeredOnce_respond rfl (by decide) (flagsByte_lt _ _ _)
  | _ => cases hi

/-- So does a step on any command word, a reserved `op` among them (R112). -/
theorem step_command_answeredOnce {s : State} (h : s.Inv) {c : CWord} {rest : List Input}
    (hin : s.inputs = .cmd c :: rest) : AnsweredOnce s (step s) := by
  rcases decodeCmd_cases c with ⟨row, hrow, -, hdecode⟩ | ⟨-, hdecode⟩
  · rw [step_cmd_op hin hdecode]
    exact exec_command_answeredOnce (h.takeInputs rest) (opcodeMap_isReceive hrow _ _)
  · rw [step_cmd_reserved hin hdecode]
    exact answeredOnce_respond rfl (by decide) (by decide)

/-- Settles O35: every command answers once, and a receive event keeps the responses (R43). -/
theorem oneResponsePerCommand : Obligations.OneResponsePerCommand := by
  unfold Obligations.OneResponsePerCommand
  exact ⟨fun s c rest h hin => step_command_answeredOnce h hin,
    fun s t x rest hin hstep => (step_rx_receiveFrame hin hstep).responses⟩

/-! ### No step stops -/

/-- A content byte inside a frame is no fault (R138). -/
theorem content_ok {s : State} (h : s.Inv) (hst : s.st ≠ .idle) (c : Byte) : ∃ t, s.content c = .ok t := by
  unfold State.content
  split
  · exact ⟨_, firstContent_eq h c⟩
  · exact ⟨_, laterContent_eq h ‹_› c⟩
  · exact absurd ‹_› hst
  · exact absurd ‹_› h.notCorrupt

/-- The frame of R139 stops only where the middle part does. -/
theorem onRx_next {m : State → Except Fault RxDone} {s : State} (hm : ∃ d, m s = .ok d) :
    ∃ t, onRx m s = .next t := by
  obtain ⟨d, hd⟩ := hm
  unfold onRx
  rw [hd]
  split
  · exact ⟨_, rfl⟩
  · split
    · exact ⟨_, rfl⟩
    · exact ⟨_, rfl⟩

/-- A receive operation has a next state where R96 selects it. -/
theorem exec_receive_next {s : State} (h : s.Inv) {i : Instr} (hi : i.isReceive = true)
    (hsel : i.selectableIn s.rxContext = true) : ∃ t, exec i s = .next t := by
  cases i with
  | rxerr | rxescbad | rxstart | rxskip | rxesc =>
    simp only [exec, execRxerr, execRxescbad, execRxstart, execRxskip, execRxesc]
    exact onRx_next ⟨_, rfl⟩
  | rxesc0 | rxesc1 =>
    obtain ⟨-, -, hst, -⟩ := RxContext.inFrame_conditions hsel
    simp only [exec, execRxesc0, execRxesc1]
    obtain ⟨u, hu⟩ := content_ok h.closeEscape hst _
    exact onRx_next ⟨_, congrArg noFailure hu⟩
  | rxlit data =>
    obtain ⟨-, -, hst, -⟩ := RxContext.inFrame_conditions hsel
    simp only [exec, execRxlit]
    obtain ⟨u, hu⟩ := content_ok h hst data
    exact onRx_next ⟨_, congrArg noFailure hu⟩
  | _ => cases hi

/-- Settles O54, by the kind of the input. -/
theorem stepNeverStops : Obligations.StepNeverStops := by
  unfold Obligations.StepNeverStops
  intro s h
  rcases hin : s.inputs with _ | ⟨x | c | _, rest⟩
  · exact ⟨_, step_idle hin⟩
  · cases hf : s.fatal with
    | true => exact ⟨_, step_rx_fatal hin hf⟩
    | false =>
      obtain ⟨i, hdecode, hi, -, hsel⟩ := decodeRx_live (w := s.cfg.wire) (c := s.rxContext) hf h.notCorrupt x
      rw [step_rx_op hin hdecode]
      exact exec_receive_next (h.takeInputs rest) hi hsel
  · obtain ⟨t, -, hstep, -⟩ := step_command_answeredOnce h hin
    exact ⟨t, hstep⟩
  · exact ⟨_, step_reset hin⟩

/-! ### Runs -/

theorem coreRun_succ (M : Host.Core) {s t : M.State} (h : M.step s = .next t) (n : Nat) :
    M.run (n + 1) s = M.run n t := by
  rw [Host.Core.run, h]

/-- A run that does not stop does not stop at its first step. -/
theorem step_of_coreRun_succ (M : Host.Core) {s t : M.State} {n : Nat} (h : M.run (n + 1) s = .next t) :
    ∃ u, M.step s = .next u := by
  rw [Host.Core.run] at h
  cases hstep : M.step s with
  | next u => exact ⟨u, rfl⟩
  | fault | refused => rw [hstep] at h; cases h

/-- A run in two parts. -/
theorem coreRun_add (M : Host.Core) {s t : M.State} {m : Nat} (h : M.run m s = .next t) (n : Nat) :
    M.run (m + n) s = M.run n t := by
  induction m generalizing s with
  | zero =>
    obtain rfl : s = t := Host.Outcome.next.inj h
    rw [Nat.zero_add]
  | succ m ih =>
    obtain ⟨u, hstep⟩ := step_of_coreRun_succ M h
    rw [coreRun_succ M hstep] at h
    rw [Nat.succ_add, coreRun_succ M hstep]
    exact ih h

/-- `n` steps of the block. -/
def State.runFor (s : State) (n : Nat) : Answer := Host.Core.run Sys2Proof.core n s

theorem runFor_add {s t : State} {m : Nat} (h : s.runFor m = .next t) (n : Nat) : s.runFor (m + n) = t.runFor n :=
  coreRun_add Sys2Proof.core h n

theorem runFor_one {s t : State} (h : step s = .next t) : s.runFor 1 = .next t := coreRun_succ Sys2Proof.core h 0

theorem runFor_two {s t u : State} (h : step s = .next t) (h' : step t = .next u) : s.runFor 2 = .next u :=
  (runFor_add (runFor_one h) 1).trans (runFor_one h')

/-! ### Clean receive events -/

/-- The state with a clean event shifted into the window (R240). -/
def State.aged (s : State) : State := { s with fwin := shiftWindow s.cfg.failWindow s.fwin false }

/-- A clean event does no more than that to a block that is within the threshold (R241). -/
theorem recordEvent_clean {s : State} (hf : s.fatal = false) (hwin : popcount s.fwin ≤ s.cfg.failThreshold) :
    s.recordEvent false = s.aged := by
  have hcount := (popcount_shift_clean s.cfg.failWindow s.fwin).trans hwin
  have hfatal : (s.recordEvent false).fatal = s.fatal := by
    rw [recordEvent_fatal, hf, Bool.false_or, decide_eq_false (Nat.not_lt.2 hcount)]
  calc s.recordEvent false = { s.aged with fatal := (s.recordEvent false).fatal } := rfl
    _ = s.aged := by rw [hfatal]; rfl

theorem State.Inv.aged {s : State} (h : s.Inv) (hf : s.fatal = false) : s.aged.Inv := by
  rw [← recordEvent_clean hf (h.withinThreshold hf)]
  exact h.recordEvent false

/-- A receive operation that raises no failure, in a live block: its own effect and a clean event (R139). -/
theorem onRx_clean {s u : State} {f : State → Except Fault State} (h : s.Inv) (hf : s.fatal = false)
    (hfu : f s = .ok u) (hu : u.fatal = s.fatal ∧ u.fwin = s.fwin ∧ u.cfg = s.cfg) :
    onRx (fun v => noFailure (f v)) s = .next u.aged := by
  obtain ⟨hfatal, hfwin, hcfg⟩ := hu
  have hwin : popcount u.fwin ≤ u.cfg.failThreshold := by
    rw [hfwin, hcfg]
    exact h.withinThreshold hf
  rw [onRx_live hf h.notCorrupt (congrArg noFailure hfu), ← recordEvent_clean (hfatal.trans hf) hwin]

/-- A content byte leaves the window to the end of the event (R139). -/
theorem content_window {s u : State} {c : Byte} (hu : s.content c = .ok u) :
    u.fatal = s.fatal ∧ u.fwin = s.fwin ∧ u.cfg = s.cfg := by
  obtain ⟨hcfg, -, -, -, -, -, -, hfwin, hfatal, -⟩ := content_frame hu
  exact ⟨hfatal, hfwin, hcfg⟩

section Clean

variable {s u : State} (h : s.Inv) (hf : s.fatal = false)
include h hf

theorem exec_rxstart_clean : exec .rxstart s = .next (State.aged { s with st := .gotStart, esc := false, pos := 0 }) :=
  onRx_clean (f := fun t => .ok { t with st := .gotStart, esc := false, pos := 0 }) h hf rfl ⟨rfl, rfl, rfl⟩

theorem exec_rxesc_clean : exec .rxesc s = .next (State.aged { s with esc := true }) :=
  onRx_clean (f := fun t => .ok { t with esc := true }) h hf rfl ⟨rfl, rfl, rfl⟩

theorem exec_rxlit_clean {c : Byte} (hu : s.content c = .ok u) : exec (.rxlit c) s = .next u.aged :=
  onRx_clean (f := fun t => t.content c) h hf hu (content_window hu)

theorem exec_rxesc0_clean (hu : State.content { s with esc := false } s.cfg.wire.escLit0 = .ok u) :
    exec .rxesc0 s = .next u.aged :=
  onRx_clean (f := fun t => State.content { t with esc := false } t.cfg.wire.escLit0) h hf hu
    (content_window (s := { s with esc := false }) hu)

theorem exec_rxesc1_clean (hu : State.content { s with esc := false } s.cfg.wire.escLit1 = .ok u) :
    exec .rxesc1 s = .next u.aged :=
  onRx_clean (f := fun t => State.content { t with esc := false } t.cfg.wire.escLit1) h hf hu
    (content_window (s := { s with esc := false }) hu)

end Clean

/-! ### A stuffed content byte -/

section Bytes

variable {s : State} {rest : List Input} (h : s.Inv) (hf : s.fatal = false)
include h hf

/-- A START_MARK in a live block (R131). -/
theorem step_startMark (hin : s.inputs = rxByte s.cfg.wire.startMark :: rest) :
    step s = .next (State.aged { s with inputs := rest, st := .gotStart, esc := false, pos := 0 }) := by
  rw [step_rx_op hin (decodeRx_startMark hf h.notCorrupt (xFlags_xByte _) (xData_xByte _) rfl)]
  exact exec_rxstart_clean (h.takeInputs rest) hf

variable (hst : s.st ≠ .idle)
include hst

/-- An ESCAPE_MARK inside a frame (R133). -/
theorem step_escapeMark (hesc : s.esc = false) (hin : s.inputs = rxByte s.cfg.wire.escapeMark :: rest) :
    step s = .next (State.aged { s with inputs := rest, esc := true }) := by
  obtain ⟨hmarks, -⟩ := (Wire.legal_iff _).1 s.cfg.wire_legal
  rw [step_rx_op hin
    (decodeRx_escapeMark hf h.notCorrupt (xFlags_xByte _) (xData_xByte _) hmarks.symm hst hesc rfl)]
  exact exec_rxesc_clean (h.takeInputs rest) hf

/-- Escape code 0 after an ESCAPE_MARK (R134). -/
theorem step_escCode0 {u : State} (hesc : s.esc = true) (hin : s.inputs = rxByte s.cfg.wire.escCode0 :: rest)
    (hu : State.content { s with inputs := rest, esc := false } s.cfg.wire.escLit0 = .ok u) :
    step s = .next u.aged := by
  obtain ⟨-, hcode0, -⟩ := (Wire.legal_iff _).1 s.cfg.wire_legal
  rw [step_rx_op hin (decodeRx_escCode0 hf h.notCorrupt (xFlags_xByte _) (xData_xByte _) hcode0 hst hesc rfl)]
  exact exec_rxesc0_clean (h.takeInputs rest) hf hu

/-- Escape code 1 after an ESCAPE_MARK (R136). -/
theorem step_escCode1 {u : State} (hesc : s.esc = true) (hin : s.inputs = rxByte s.cfg.wire.escCode1 :: rest)
    (hu : State.content { s with inputs := rest, esc := false } s.cfg.wire.escLit1 = .ok u) :
    step s = .next u.aged := by
  obtain ⟨-, -, hcode1, hcodes, -⟩ := (Wire.legal_iff _).1 s.cfg.wire_legal
  rw [step_rx_op hin
    (decodeRx_escCode1 hf h.notCorrupt (xFlags_xByte _) (xData_xByte _) hcode1 hst hesc hcodes.symm rfl)]
  exact exec_rxesc1_clean (h.takeInputs rest) hf hu

/-- A byte that is no mark inside a frame (R137). -/
theorem step_literal {u : State} {b : Byte} (hesc : s.esc = false) (hs : b ≠ s.cfg.wire.startMark)
    (hm : b ≠ s.cfg.wire.escapeMark) (hin : s.inputs = rxByte b :: rest)
    (hu : State.content { s with inputs := rest } b = .ok u) : step s = .next u.aged := by
  rw [step_rx_op hin (decodeRx_literal hf h.notCorrupt (xFlags_xByte _) (xData_xByte _) hs hst hesc hm)]
  exact exec_rxlit_clean (h.takeInputs rest) hf hu

/-- A stuffed content byte hands the byte itself to the frame (R95, R118): escaped or not, it is one content byte in the
state with the inputs taken, where only the window may have aged by the ESCAPE_MARK. -/
theorem runFor_stuff {b : Byte} (hesc : s.esc = false) (h0 : s.cfg.wire.escLit0 = s.cfg.wire.escapeMark)
    (h1 : s.cfg.wire.escLit1 = s.cfg.wire.startMark) (hin : s.inputs = stuff s.cfg.wire b ++ rest) :
    ∃ fwin, State.Inv { s with inputs := rest, fwin := fwin } ∧
      ∀ u, State.content { s with inputs := rest, fwin := fwin } b = .ok u →
        s.runFor (stuff s.cfg.wire b).length = .next u.aged := by
  have hmarked : ∀ l, State.Inv (State.aged { s with inputs := l, esc := true }) := fun l =>
    ((h.takeInputs l).openEscape hst).aged hf
  have hclosed : { State.aged { s with inputs := rest } with esc := false } = State.aged { s with inputs := rest } := by
    rw [← hesc]; rfl
  unfold stuff at hin ⊢
  split at hin
  · next hb =>
    rw [if_pos hb]
    refine ⟨_, (h.takeInputs rest).aged hf, fun u hu => ?_⟩
    refine runFor_two (step_escapeMark h hf hst hesc hin) (step_escCode0 (hmarked _) hf hst rfl rfl ?_)
    exact (congrArg₂ State.content hclosed (h0.trans hb.symm)).trans hu
  · next hm =>
    split at hin
    · next hb =>
      rw [if_neg hm, if_pos hb]
      refine ⟨_, (h.takeInputs rest).aged hf, fun u hu => ?_⟩
      refine runFor_two (step_escapeMark h hf hst hesc hin) (step_escCode1 (hmarked _) hf hst rfl rfl ?_)
      exact (congrArg₂ State.content hclosed (h1.trans hb.symm)).trans hu
    · next hs =>
      rw [if_neg hm, if_neg hs]
      exact ⟨s.fwin, h.takeInputs rest, fun u hu => runFor_one (step_literal h hf hst hesc hs hm hin hu)⟩

end Bytes

/-! ### The next byte of a frame that is stored -/

/-- The first `n` bytes of the buffer at the write cursor. -/
def State.written (s : State) (n : Nat) : List Byte := (List.range n).map (s.cell s.wr)

/-- The block awaits the byte `c` of an accepted frame of `len` bytes, the bytes `done` before it stored: it is the
frame's first byte (R141) or a later one (R142). -/
structure AwaitsByte (s : State) (done : List Byte) (len : Nat) (c : Byte) : Prop where
  inv : s.Inv
  live : s.fatal = false
  esc : s.esc = false
  free : s.pending < s.cfg.nbuf
  inside : done.length < len
  fits : len ≤ s.cfg.buflen
  written : s.written done.length = done
  place : (s.st = .gotStart ∧ done = [] ∧ lenOf s.cfg c s.myaddr = len) ∨
    (s.st = .reading ∧ s.sten = true ∧ s.pos.toNat = done.length ∧ s.explen.toNat = len)

/-- The state with the byte `c` of a frame of `len` bytes stored at offset `o` (R64, R141, R142). -/
def State.withByte (s : State) (o len : Nat) (c : Byte) : State :=
  { s with
    st := .reading, sten := true, pos := BitVec.ofNat 8 (o + 1), explen := BitVec.ofNat 8 len,
    buf := s.buf.write (cellKey s.wr o) c }

/-- The state with the buffer at the write cursor put at the end of the queue (R143). -/
def State.enqueued (s : State) : State :=
  { s with
    flen := s.flen.set s.wr s.explen, wr := (s.wr + 1) % s.cfg.nbuf, pending := s.pending + 1, st := .idle }

/-- A stored byte follows those before it. -/
theorem written_withByte {s : State} (h : s.Inv) {o : Nat} (ho : o < s.cfg.buflen) (len : Nat) (c : Byte) :
    (s.withByte o len c).written (o + 1) = s.written o ++ [c] := by
  have hbuflen := s.cfg.buflen_le
  have hbefore : ∀ k ∈ List.range o, (s.withByte o len c).cell s.wr k = s.cell s.wr k := fun k hk => by
    have hk : k < o := List.mem_range.1 hk
    have hkey : cellKey s.wr k ≠ cellKey s.wr o := fun he =>
      hk.ne ((cellKey_inj (by omega) (by omega)).1 he).2
    exact read_write_other _ c hkey
  have hlast : (s.withByte o len c).cell s.wr o = c := read_write_same h.bufWf _ _
  rw [State.written, List.range_succ, List.map_append, List.map_singleton]
  exact congrArg₂ (· ++ [·]) (List.map_congr_left hbefore) hlast

namespace AwaitsByte

variable {s : State} {done : List Byte} {len : Nat} {c : Byte}

theorem not_idle (a : AwaitsByte s done len c) : s.st ≠ .idle := by
  rcases a.place with ⟨hst, -⟩ | ⟨hst, -⟩ <;> simp [hst]

/-- What the frame's byte does: it is stored, and the last one ends the frame (R141 to R143). -/
theorem content_eq (a : AwaitsByte s done len c) :
    s.content c = .ok (if done.length + 1 = len then (s.withByte done.length len c).enqueued
      else s.withByte done.length len c) := by
  have hlen := a.inside
  have hfits := a.fits
  have hbuflen := s.cfg.buflen_le
  rcases a.place with ⟨hst, rfl, hlenOf⟩ | ⟨hst, hsten, hpos, hexplen⟩
  · have hsten : decide (s.pending < s.cfg.nbuf) = true := decide_eq_true a.free
    have hzero : len ≠ 0 := Nat.ne_of_gt hlen
    simp only [State.content, hst, firstContent_eq a.inv, hlenOf, hsten, if_neg hzero]
    simp only [State.withByte, State.enqueued, eq_comm (a := len)]
    rfl
  · obtain ⟨hsucc, hlast⟩ := a.inv.pos_succ hst
    have hposBits : BitVec.ofNat 8 (done.length + 1) = s.pos + 1 := by
      rw [← hpos, ← hsucc, BitVec.ofNat_toNat, BitVec.setWidth_eq]
    have hexplenBits : BitVec.ofNat 8 len = s.explen := by
      rw [← hexplen, BitVec.ofNat_toNat, BitVec.setWidth_eq]
    have hbyte : s.withByte done.length len c =
        { s with pos := s.pos + 1, buf := if s.sten then s.buf.write (cellKey s.wr s.pos.toNat) c else s.buf } := by
      rw [State.withByte, hposBits, hexplenBits, if_pos hsten, hpos, ← hst, ← hsten]
    rw [hpos, hexplen] at hlast
    rw [State.content, hst]
    dsimp only
    rw [laterContent_eq a.inv hst, hbyte]
    simp only [hlast, if_pos hsten]
    rfl

theorem content_more (a : AwaitsByte s done len c) (hmore : done.length + 1 < len) :
    s.content c = .ok (s.withByte done.length len c) := by
  rw [a.content_eq, if_neg hmore.ne]

theorem content_last (a : AwaitsByte s done len c) (hlast : done.length + 1 = len) :
    s.content c = .ok (s.withByte done.length len c).enqueued := by
  rw [a.content_eq, if_pos hlast]

/-- A byte before the last leaves the block waiting for the byte after it. -/
theorem awaits_next (a : AwaitsByte s done len c) (hmore : done.length + 1 < len) (c' : Byte) :
    AwaitsByte (s.withByte done.length len c) (done ++ [c]) len c' := by
  have hfits := a.fits
  have hbuflen := s.cfg.buflen_le
  refine ⟨content_inv a.inv a.esc (a.content_more hmore), a.live, a.esc, a.free, by simpa using hmore, hfits, ?_,
    .inr ⟨rfl, rfl, ?_, ?_⟩⟩
  · rw [List.length_append, List.length_singleton, written_withByte a.inv (a.inside.trans_le hfits), a.written]
  · simp only [State.withByte, BitVec.toNat_ofNat, List.length_append, List.length_singleton]
    omega
  · simp only [State.withByte, BitVec.toNat_ofNat]
    omega

end AwaitsByte

/-! ### What becomes of the frame -/

/-- What the frame's end is measured against is the same in both states: all of the block but the decoder, the window,
the inputs and the bytes of no pending frame. -/
structure SameBlock (s t : State) : Prop where
  cfg : t.cfg = s.cfg
  rd : t.rd = s.rd
  myaddr : t.myaddr = s.myaddr
  cal : t.cal = s.cal
  calv : t.calv = s.calv
  responses : t.responses = s.responses
  wr : t.wr = s.wr
  pending : t.pending = s.pending
  ovf : t.ovf = s.ovf
  frames : frames t = frames s

/-- The content bytes `p` have become the last pending frame, and the decoder is back in IDLE. -/
structure Delivered (s t : State) (p : List Byte) : Prop where
  quiet : QuietFrame s t
  inv : t.Inv
  pending : t.pending = s.pending + 1
  wr : t.wr = (s.wr + 1) % s.cfg.nbuf
  ovf : t.ovf = s.ovf
  frames : frames t = frames s ++ [p]

theorem Delivered.of_sameBlock {s t u : State} {p : List Byte} (e : SameBlock s t) (d : Delivered t u p) :
    Delivered s u p := by
  obtain ⟨⟨hst, hesc, hfatal, hrd, hmyaddr, hcal, hcalv, hcfg, hresponses, hinputs⟩, hinv, hpending, hwr, hovf,
    hframes⟩ := d
  exact ⟨⟨hst, hesc, hfatal, hrd.trans e.rd, hmyaddr.trans e.myaddr, hcal.trans e.cal, hcalv.trans e.calv,
      hcfg.trans e.cfg, hresponses.trans e.responses, hinputs⟩,
    hinv, by rw [hpending, e.pending], by rw [hwr, e.wr, e.cfg], hovf.trans e.ovf, by rw [hframes, e.frames]⟩

/-- A receive operation that leaves the count of pending frames leaves the frames. -/
theorem RingEffect.frames_same {s t : State} (e : RingEffect s t) (h : s.Inv) (hp : t.pending = s.pending) :
    frames t = frames s := by
  rw [frames, hp, e.map_frameAt h]

/-- One that raises the count puts the frame in the buffer after the last at the end of the queue. -/
theorem RingEffect.frames_snoc {s t : State} (e : RingEffect s t) (h : s.Inv) (hp : t.pending = s.pending + 1) :
    frames t = frames s ++ [frameAt t s.pending] := by
  rw [frames, hp, List.range_succ, List.map_append, e.map_frameAt h, List.map_singleton]

/-- The enqueued buffer holds the bytes written to it, as many as the frame's length. -/
theorem frameAt_enqueued {s : State} (hwr : s.wr = s.pendingBuffer s.pending) (hflen : s.wr < s.flen.length) :
    frameAt s.enqueued s.pending = s.written s.explen.toNat := by
  have hbuffer : s.enqueued.pendingBuffer s.pending = s.wr := hwr.symm
  have hlen : s.enqueued.lenAt s.wr = s.explen := by
    rw [State.lenAt, State.enqueued, lenAt_set hflen, if_pos rfl]
  rw [frameAt, hbuffer, hlen]
  rfl

namespace AwaitsByte

variable {s : State} {done : List Byte} {len : Nat} {c : Byte}

theorem sameBlock_withByte (a : AwaitsByte s done len c) (hmore : done.length + 1 < len) :
    SameBlock s (s.withByte done.length len c).aged :=
  ⟨rfl, rfl, rfl, rfl, rfl, rfl, rfl, rfl, rfl,
    (content_ringEffect a.inv (a.content_more hmore)).frames_same a.inv rfl⟩

theorem frameAt_last (a : AwaitsByte s done len c) (hlast : done.length + 1 = len) :
    frameAt (s.withByte done.length len c).enqueued s.pending = done ++ [c] := by
  have hfits := a.fits
  have hbuflen := s.cfg.buflen_le
  have hexplen : (s.withByte done.length len c).explen.toNat = done.length + 1 := by
    simp only [State.withByte, BitVec.toNat_ofNat]
    omega
  calc frameAt (s.withByte done.length len c).enqueued s.pending
      = (s.withByte done.length len c).written (s.withByte done.length len c).explen.toNat :=
        frameAt_enqueued (s := s.withByte done.length len c) a.inv.wrEq a.inv.wr_lt_flen
    _ = s.written done.length ++ [c] := by rw [hexplen, written_withByte a.inv (a.inside.trans_le hfits)]
    _ = done ++ [c] := by rw [a.written]

theorem delivered_enqueued (a : AwaitsByte s done len c) (hlast : done.length + 1 = len) (hin : s.inputs = []) :
    Delivered s (s.withByte done.length len c).enqueued.aged (done ++ [c]) := by
  have hcontent := a.content_last hlast
  have hinv := content_inv a.inv a.esc hcontent
  have hframes := (content_ringEffect a.inv hcontent).frames_snoc a.inv rfl
  rw [a.frameAt_last hlast] at hframes
  exact ⟨⟨rfl, a.esc, a.live, rfl, rfl, rfl, rfl, rfl, rfl, hin⟩, hinv.aged a.live, rfl, rfl, rfl, hframes⟩

end AwaitsByte

/-! ### A whole frame -/

/-- Taking inputs and ageing the window moves nothing else. -/
theorem sameBlock_taken (s : State) (rest : List Input) (fwin : List Bool) :
    SameBlock s { s with inputs := rest, fwin := fwin } :=
  ⟨rfl, rfl, rfl, rfl, rfl, rfl, rfl, rfl, rfl, rfl⟩

/-- The rest of an accepted frame, stuffed and run, delivers it: by induction on the bytes still to come. -/
theorem runFor_rest {s : State} {done : List Byte} {len : Nat} {c : Byte} {cs : List Byte}
    (a : AwaitsByte s done len c) (hlen : done.length + cs.length + 1 = len)
    (h0 : s.cfg.wire.escLit0 = s.cfg.wire.escapeMark) (h1 : s.cfg.wire.escLit1 = s.cfg.wire.startMark)
    (hin : s.inputs = (c :: cs).flatMap (stuff s.cfg.wire)) :
    ∃ t, s.runFor ((c :: cs).flatMap (stuff s.cfg.wire)).length = .next t ∧ Delivered s t (done ++ c :: cs) := by
  induction cs generalizing s done c with
  | nil =>
    obtain ⟨fwin, hinv, hrun⟩ := runFor_stuff a.inv a.live a.not_idle a.esc h0 h1 hin
    have a' : AwaitsByte { s with inputs := [], fwin := fwin } done len c := { a with inv := hinv }
    refine ⟨_, ?_, (a'.delivered_enqueued hlen rfl).of_sameBlock (sameBlock_taken s [] fwin)⟩
    rw [List.flatMap_singleton]
    exact hrun _ (a'.content_last hlen)
  | cons c' cs ih =>
    have hmore : done.length + 1 < len := by
      rw [List.length_cons] at hlen
      omega
    obtain ⟨fwin, hinv, hrun⟩ := runFor_stuff a.inv a.live a.not_idle a.esc h0 h1 hin
    have a' : AwaitsByte { s with inputs := (c' :: cs).flatMap (stuff s.cfg.wire), fwin := fwin } done len c :=
      { a with inv := hinv }
    have anext := a'.awaits_next hmore c'
    have hlen' : (done ++ [c]).length + cs.length + 1 = len := by
      simp only [List.length_append, List.length_cons, List.length_nil] at hlen ⊢
      omega
    obtain ⟨t, hrest, hdelivered⟩ := ih { anext with inv := anext.inv.aged anext.live } hlen' h0 h1 rfl
    refine ⟨t, ?_, ?_⟩
    · rw [List.flatMap_cons, List.length_append, runFor_add (hrun _ (a'.content_more hmore))]
      exact hrest
    · rw [List.append_cons]
      exact (hdelivered.of_sameBlock (a'.sameBlock_withByte hmore)).of_sameBlock (sameBlock_taken s _ fwin)

/-- After a START_MARK the block awaits the first byte of the frame, in the middle of another one too (R131). -/
theorem awaitsByte_started {s : State} (h : s.Inv) (hf : s.fatal = false) (hfree : s.pending < s.cfg.nbuf) {c : Byte}
    {len : Nat} (hlenOf : lenOf s.cfg c s.myaddr = len) (hpos : 0 < len) (l : List Input) :
    AwaitsByte (State.aged { s with inputs := l, st := .gotStart, esc := false, pos := 0 }) [] len c :=
  ⟨(h.takeInputs l).startFrame.aged hf, hf, rfl, hfree, hpos, hlenOf ▸ lenOf_le s.cfg c s.myaddr, rfl,
    .inl ⟨rfl, rfl, hlenOf⟩⟩

/-- Settles O22: the START_MARK opens the frame, and its bytes are delivered one by one. -/
theorem acceptedFrameIsStoredWhole : Obligations.AcceptedFrameIsStoredWhole := by
  unfold Obligations.AcceptedFrameIsStoredWhole
  intro s p c cs h hf hfree h0 h1 hp hlenOf
  subst hp
  have hstart := step_startMark (h.takeInputs (frame s.cfg.wire (c :: cs))) hf rfl
  have hawaits := awaitsByte_started h hf hfree hlenOf (Nat.succ_pos _) ((c :: cs).flatMap (stuff s.cfg.wire))
  obtain ⟨t, hrest, hdelivered⟩ := runFor_rest hawaits (by simp) h0 h1 rfl
  have hopened : SameBlock s (State.aged
      { s with inputs := (c :: cs).flatMap (stuff s.cfg.wire), st := .gotStart, esc := false, pos := 0 }) :=
    ⟨rfl, rfl, rfl, rfl, rfl, rfl, rfl, rfl, rfl, rfl⟩
  obtain ⟨hquiet, hinv, hpending, hwr, hovf, hframes⟩ := hdelivered.of_sameBlock hopened
  refine ⟨t, ?_, hquiet, hinv, hpending, hwr, hovf, hframes⟩
  calc runInputs s (frame s.cfg.wire (c :: cs))
      = State.runFor { s with inputs := frame s.cfg.wire (c :: cs) }
          (1 + ((c :: cs).flatMap (stuff s.cfg.wire)).length) := by rw [Nat.add_comm]; rfl
    _ = .next t := (runFor_add (runFor_one hstart) _).trans hrest

end Sys2Proof.Machine
end

section
/-! Proofs for the family 40_rx_decoder.md: the receive operations one by one, the table of transitions, and the frames
that are dropped or rejected. -/

namespace Sys2Proof.Machine

open Sys2Proof.Claims

/-! ### The length function -/

/-- Settles O25, line by line. -/
theorem standardLengthFunction : Obligations.StandardLengthFunction := by
  unfold Obligations.StandardLengthFunction
  intro cfg c a hstd
  obtain ⟨-, -, -, -, hstrobe, hinvalid, hstrobeInvalid⟩ := (Wire.legal_iff _).1 cfg.wire_legal
  have hlen : lenOf cfg c a = lenStd cfg c a := by simp only [lenOf, hstd]
  rw [hlen]
  unfold lenStd
  refine ⟨fun hc => ?_, fun hc => ?_, fun hc => ?_, fun hs hi hc => ?_, fun hs hb hc => ?_⟩
  · rw [if_pos hc]
  · rw [hc, if_neg hstrobeInvalid.symm, if_pos rfl]
  · rw [hc, if_neg hstrobe, if_neg hinvalid, if_pos rfl]
  · rw [if_neg hs, if_neg hi, if_pos hc, ite_self]
  · rw [if_neg hs, if_neg hb, if_neg hc, ite_self]

/-! ### The end of a receive event -/

/-- The model's window and threshold are those of the rules while the block is not fatal (R240, R241). -/
theorem recordEvent_eq_eventEnd {s : State} (hf : s.fatal = false) (f : Bool) : s.recordEvent f = eventEnd f s := by
  simp only [State.recordEvent, eventEnd, shiftWindow, popcount_eq_count, hf, Bool.false_or, gt_iff_lt]

theorem errorFree_iff {x : XWord} : errorFree x ↔ xFlags x = 0 := (xFlags_eq_zero_iff x).symm

/-- A receive operation that raises no failure, in a live block: its own effect, and the event's end (R139). -/
theorem onRx_noFailure_live {s u : State} {f : State → Except Fault State} (hf : s.fatal = false) (hc : s.st ≠ .corrupt)
    (hu : f s = .ok u) (hfu : u.fatal = s.fatal) : onRx (fun v => noFailure (f v)) s = .next (eventEnd false u) := by
  rw [onRx_live hf hc (congrArg noFailure hu), recordEvent_eq_eventEnd (hfu.trans hf)]

/-- A failure event in a live block (R236). -/
theorem onRx_raiseFailure_live {s : State} (hf : s.fatal = false) (hc : s.st ≠ .corrupt) (cause : FailureCause) :
    onRx (raiseFailure cause) s = .next (eventEnd true { s with st := .idle, esc := false }) := by
  rw [onRx_live hf hc (raiseFailure_eq cause s), recordEvent_eq_eventEnd (s := s.abortFrame) hf]
  rfl

/-! ### The operations that hand over no content byte -/

section Live

variable {s : State} (hf : s.fatal = false) (hc : s.st ≠ .corrupt)
include hf hc

theorem exec_rxerr_live (flags : BitVec 4) (data : Byte) :
    exec (.rxerr flags data) s = .next (eventEnd true { s with st := .idle, esc := false }) :=
  onRx_raiseFailure_live hf hc (.hwError flags)

theorem exec_rxescbad_live (data : Byte) :
    exec (.rxescbad data) s = .next (eventEnd true { s with st := .idle, esc := false }) :=
  onRx_raiseFailure_live hf hc .malformedEscape

theorem exec_rxstart_live :
    exec .rxstart s = .next (eventEnd false { s with st := .gotStart, esc := false, pos := 0 }) :=
  onRx_noFailure_live (f := fun t => .ok { t with st := .gotStart, esc := false, pos := 0 }) hf hc rfl rfl

theorem exec_rxskip_live (data : Byte) : exec (.rxskip data) s = .next (eventEnd false s) :=
  onRx_noFailure_live (f := .ok) hf hc rfl rfl

theorem exec_rxesc_live : exec .rxesc s = .next (eventEnd false { s with esc := true }) :=
  onRx_noFailure_live (f := fun t => .ok { t with esc := true }) hf hc rfl rfl

theorem exec_rxesc0_live : exec .rxesc0 s = exec (.rxlit s.cfg.wire.escLit0) { s with esc := false } := by
  simp only [exec, execRxesc0, execRxlit, onRx, hf, hc, if_false, Bool.false_eq_true]

theorem exec_rxesc1_live : exec .rxesc1 s = exec (.rxlit s.cfg.wire.escLit1) { s with esc := false } := by
  simp only [exec, execRxesc1, execRxlit, onRx, hf, hc, if_false, Bool.false_eq_true]

end Live

/-- Settles O8: both operations raise a failure, and R96 selects one of them for the words named. -/
theorem failureEventAbortsFrame : Obligations.FailureEventAbortsFrame := by
  unfold Obligations.FailureEventAbortsFrame
  refine ⟨fun s flags data hf hc => ⟨exec_rxerr_live hf hc flags data, exec_rxescbad_live hf hc data⟩, ?_⟩
  rintro s x rest ⟨hin, hf, hc⟩ (hx | ⟨hx, hst, hesc, h0, h1, hs⟩)
  · rw [step_rx_op hin (decodeRx_error hf hc (mt errorFree_iff.2 hx))]
    exact exec_rxerr_live (s := { s with inputs := rest }) hf hc _ _
  · rw [step_rx_op hin (decodeRx_escBad hf hc (errorFree_iff.1 hx) rfl hs hst hesc h0 h1)]
    exact exec_rxescbad_live (s := { s with inputs := rest }) hf hc _

/-- Settles O9: START_MARK is the line of R96 before any that looks at the decoder state. -/
theorem startMarkRestartsDecoder : Obligations.StartMarkRestartsDecoder := by
  unfold Obligations.StartMarkRestartsDecoder
  refine ⟨fun s => exec_rxstart_live, ?_⟩
  rintro s x rest ⟨hin, hf, hc⟩ hx hs
  rw [step_rx_op hin (decodeRx_startMark hf hc (errorFree_iff.1 hx) rfl hs)]
  exact exec_rxstart_live (s := { s with inputs := rest }) hf hc

/-- Settles O10: in IDLE every other error-free byte selects RXSKIP. -/
theorem skippedByteOnlyAgesWindow : Obligations.SkippedByteOnlyAgesWindow := by
  unfold Obligations.SkippedByteOnlyAgesWindow
  refine ⟨fun s data hf hc => exec_rxskip_live hf hc data, ?_⟩
  rintro s x rest ⟨hin, hf, hc⟩ hx hs hst
  rw [step_rx_op hin (decodeRx_idle hf (errorFree_iff.1 hx) rfl hs hst)]
  exact exec_rxskip_live (s := { s with inputs := rest }) hf hc _

/-- Settles O11: the ESCAPE_MARK is no START_MARK, so R96 reaches its line. -/
theorem escapeMarkSetsEsc : Obligations.EscapeMarkSetsEsc := by
  unfold Obligations.EscapeMarkSetsEsc
  refine ⟨fun s => exec_rxesc_live, ?_⟩
  rintro s x rest ⟨hin, hf, hc⟩ hx hm hst hesc
  obtain ⟨hmarks, -⟩ := (Wire.legal_iff _).1 s.cfg.wire_legal
  rw [step_rx_op hin (decodeRx_escapeMark hf hc (errorFree_iff.1 hx) rfl (hm ▸ hmarks.symm) hst hesc hm)]
  exact exec_rxesc_live (s := { s with inputs := rest }) hf hc

/-- Settles O12: the escape codes are no START_MARK and differ, so R96 reaches their lines. -/
theorem escapeCodesStandForLiterals : Obligations.EscapeCodesStandForLiterals := by
  unfold Obligations.EscapeCodesStandForLiterals
  rintro s x rest ⟨hin, hf, hc⟩ hx hst
  have hx := errorFree_iff.1 hx
  obtain ⟨-, hcode0, hcode1, hcodes, -⟩ := (Wire.legal_iff _).1 s.cfg.wire_legal
  refine ⟨fun hesc h0 => ?_, fun hesc h1 => ?_, fun hesc hs hm => ?_⟩
  · rw [step_rx_op hin (decodeRx_escCode0 hf hc hx rfl (h0 ▸ hcode0) hst hesc h0)]
    exact exec_rxesc0_live (s := { s with inputs := rest }) hf hc
  · rw [step_rx_op hin (decodeRx_escCode1 hf hc hx rfl (h1 ▸ hcode1) hst hesc (h1 ▸ hcodes.symm) h1)]
    exact exec_rxesc1_live (s := { s with inputs := rest }) hf hc
  · rw [step_rx_op hin (decodeRx_literal hf hc hx rfl hs hst hesc hm)]

/-! ### The operations that hand over a content byte -/

/-- No operation hands over two different bytes. -/
theorem isContent_unique {s : State} {i : Instr} {c c' : Byte} (hi : IsContent s i c) (hi' : IsContent s i c') :
    c' = c := by
  rcases hi with ⟨rfl, -⟩ | ⟨rfl, rfl⟩ | ⟨rfl, rfl⟩
  · obtain ⟨rfl, -⟩ : c = c' ∧ s.esc = false := by simpa [IsContent] using hi'
    rfl
  · simpa [IsContent] using hi'
  · simpa [IsContent] using hi'

/-- RXLIT, RXESC0 and RXESC1 in a live block are one operation: the byte goes to `content` with `esc` cleared (R134,
R136, R137). -/
theorem exec_content_live {s u : State} {i : Instr} {c : Byte} (hf : s.fatal = false) (hc : s.st ≠ .corrupt)
    (hi : IsContent s i c) (hu : State.content { s with esc := false } c = .ok u) :
    exec i s = .next (eventEnd false u) := by
  have hlit : exec (.rxlit c) { s with esc := false } = .next (eventEnd false u) :=
    onRx_noFailure_live (f := fun t => t.content c) hf hc hu (content_window hu).1
  rcases hi with ⟨rfl, hesc⟩ | ⟨rfl, rfl⟩ | ⟨rfl, rfl⟩
  · have hopen : { s with esc := false } = s := by rw [← hesc]
    rwa [hopen] at hlit
  · rwa [exec_rxesc0_live hf hc]
  · rwa [exec_rxesc1_live hf hc]

/-- What such an operation leaves alone (R43). -/
theorem contentFrame_of_content {s u : State} {c : Byte} (hu : State.content { s with esc := false } c = .ok u) :
    ContentFrame s (eventEnd false u) := by
  obtain ⟨hcfg, hrd, hmyaddr, hcal, hcalv, hinputs, hresponses, hfwin, -, hesc, -⟩ := content_frame hu
  refine ⟨hcfg, hrd, hmyaddr, hcal, hcalv, hinputs, hresponses, hesc, ?_, ?_⟩
  · simp only [eventEnd, hfwin, hcfg]
  · simp only [eventEnd, hfwin, hcfg]

/-! ### What a content byte does -/

/-- The state with the first byte `c` of a frame that `LEN` accepts, before the frame's end is looked at (R141). -/
def State.withFirstByte (s : State) (c : Byte) : State :=
  { s with
    st := .reading, pos := 1, explen := BitVec.ofNat 8 (lenOf s.cfg c s.myaddr),
    sten := decide (s.pending < s.cfg.nbuf),
    buf := if decide (s.pending < s.cfg.nbuf) then s.buf.write (cellKey s.wr 0) c else s.buf }

/-- The state with a later byte `c` of a frame, before the frame's end is looked at (R142). -/
def State.withLaterByte (s : State) (c : Byte) : State :=
  { s with
    pos := s.pos + 1, buf := if s.sten then s.buf.write (cellKey s.wr s.pos.toNat) c else s.buf }

/-- The state with the frame in progress completed: enqueued if it was stored, dropped if not (R143). -/
def State.ended (s : State) : State := if s.sten then s.enqueued else { s with ovf := true, st := .idle }

/-- A frame whose length is 0 is discarded at its first byte (R141). -/
theorem content_rejected {s : State} {c : Byte} (h : s.Inv) (hst : s.st = .gotStart)
    (hlen : lenOf s.cfg c s.myaddr = 0) : s.content c = .ok { s with st := .idle } := by
  rw [State.content, hst]
  dsimp only
  rw [firstContent_eq h]
  dsimp only
  rw [if_pos hlen]

/-- The first byte of a frame that `LEN` accepts; a frame of length 1 ends with it (R141). -/
theorem content_first {s : State} {c : Byte} (h : s.Inv) (hst : s.st = .gotStart)
    (hlen : lenOf s.cfg c s.myaddr ≠ 0) :
    s.content c = .ok (if lenOf s.cfg c s.myaddr = 1 then (s.withFirstByte c).ended else s.withFirstByte c) := by
  rw [State.content, hst]
  dsimp only
  rw [firstContent_eq h]
  dsimp only
  rw [if_neg hlen]
  rfl

/-- A later byte of a frame; the last one ends it (R142). -/
theorem content_later {s : State} (h : s.Inv) (hst : s.st = .reading) (c : Byte) :
    s.content c =
      .ok (if s.pos.toNat + 1 = s.explen.toNat then (s.withLaterByte c).ended else s.withLaterByte c) := by
  rw [State.content, hst]
  dsimp only
  rw [laterContent_eq h hst]
  simp only [(h.pos_succ hst).2]
  rfl

section Ended

variable (s : State)

theorem ended_stored (hs : s.sten = true) : s.ended = s.enqueued := if_pos hs
theorem ended_dropped (hs : s.sten = false) : s.ended = { s with ovf := true, st := .idle } :=
  if_neg (Bool.eq_false_iff.1 hs)

@[simp] theorem ended_st : s.ended.st = .idle := by unfold State.ended; split <;> rfl
@[simp] theorem ended_pos : s.ended.pos = s.pos := by unfold State.ended; split <;> rfl
@[simp] theorem ended_explen : s.ended.explen = s.explen := by unfold State.ended; split <;> rfl
@[simp] theorem ended_sten : s.ended.sten = s.sten := by unfold State.ended; split <;> rfl
@[simp] theorem ended_buf : s.ended.buf = s.buf := by unfold State.ended; split <;> rfl

end Ended

/-- `complete()` as R143 says it, the ring being the one before the byte. -/
theorem completed_ended {s u : State} (hcfg : u.cfg = s.cfg) (hring : RingSame s u) :
    Completed s (eventEnd false u.ended) u.sten u.explen := by
  obtain ⟨hwr, hpending, hflen, hovf⟩ := hring
  refine ⟨ended_st u, fun hs => ?_, fun hs => ?_⟩
  · rw [ended_stored u hs, ← hcfg, ← hwr, ← hpending, ← hflen, ← hovf]
    exact ⟨rfl, rfl, rfl, rfl⟩
  · rw [ended_dropped u hs, ← hwr, ← hpending, ← hflen]
    exact ⟨rfl, rfl, rfl, rfl⟩

/-- The memory after a content byte, as R64 says it. -/
theorem storedAt_of_buf {s t : State} {sten : Bool} {o : Nat} {c : Byte} (h : s.Inv)
    (hbuf : t.buf = if sten then s.buf.write (cellKey s.wr o) c else s.buf) :
    (sten = true → StoredAt s t o c) ∧ (sten = false → t.buf = s.buf) := by
  refine ⟨?_, ?_⟩
  · rintro rfl
    rw [if_pos rfl] at hbuf
    rw [StoredAt, hbuf]
    exact ⟨read_write_same h.bufWf _ _, fun a ha => read_write_other _ c ha⟩
  · rintro rfl
    exact hbuf

/-- Settles O13, by the frame's length: 0, 1, and above. -/
theorem firstContentByte : Obligations.FirstContentByte := by
  unfold Obligations.FirstContentByte
  intro s i c h hf hst hi
  have hc : s.st ≠ .corrupt := h.notCorrupt
  have hbits := lenOf_toNat s.cfg c s.myaddr
  by_cases hlen : lenOf s.cfg c s.myaddr = 0
  · have hu := content_rejected (s := { s with esc := false }) h.closeEscape hst hlen
    refine ⟨_, exec_content_live hf hc hi hu, contentFrame_of_content hu, fun _ => ?_, fun hne => absurd hlen hne,
      fun hlt => ?_, fun hone => ?_⟩
    · exact ⟨rfl, rfl, rfl, rfl, rfl, rfl, rfl, rfl, rfl⟩
    · omega
    · omega
  · have hu := content_first (s := { s with esc := false }) h.closeEscape hst hlen
    have hstore : ∀ t : State, t.buf = (s.withFirstByte c).buf →
        (s.pending < s.cfg.nbuf → StoredAt s t 0 c) ∧ (¬ s.pending < s.cfg.nbuf → t.buf = s.buf) := fun t ht => by
      simpa only [decide_eq_true_eq, decide_eq_false_iff_not] using storedAt_of_buf h ht
    refine ⟨_, exec_content_live hf hc hi hu, contentFrame_of_content hu, fun hzero => absurd hzero hlen, fun _ => ?_,
      fun hlt => ?_, fun hone => ?_⟩
    · dsimp only
      split
      · refine ⟨ended_pos _, ?_, ended_sten _, hstore _ (ended_buf _)⟩
        exact (congrArg BitVec.toNat (ended_explen _)).trans hbits
      · exact ⟨rfl, hbits, rfl, hstore _ rfl⟩
    · dsimp only
      rw [if_neg hlt.ne']
      exact ⟨rfl, rfl, rfl, rfl, rfl⟩
    · dsimp only
      rw [if_pos hone]
      have hdone := completed_ended (s := s) (u := State.withFirstByte { s with esc := false } c) rfl
        ⟨rfl, rfl, rfl, rfl⟩
      have hexplen : BitVec.ofNat 8 (lenOf s.cfg c s.myaddr) = 1 := by rw [hone]; rfl
      exact hexplen ▸ hdone

/-- Settles O14, by whether the byte is the frame's last. -/
theorem laterContentByte : Obligations.LaterContentByte := by
  unfold Obligations.LaterContentByte
  intro s i c h hf hst hi
  have hu := content_later (s := { s with esc := false }) h.closeEscape hst c
  have hpos := (h.pos_succ hst).1
  have hstored : ∀ t : State, t.buf = (s.withLaterByte c).buf → s.sten = true → StoredAt s t s.pos.toNat c :=
    fun _ ht => (storedAt_of_buf h ht).1
  have hskipped : ∀ t : State, t.buf = (s.withLaterByte c).buf → s.sten = false → t.buf = s.buf :=
    fun _ ht => (storedAt_of_buf h ht).2
  refine ⟨_, exec_content_live hf h.notCorrupt hi hu, contentFrame_of_content hu, ?_⟩
  dsimp only
  split
  · next hlast =>
    have hdone := completed_ended (s := s) (u := State.withLaterByte { s with esc := false } c) rfl
      ⟨rfl, rfl, rfl, rfl⟩
    exact ⟨(congrArg BitVec.toNat (ended_pos _)).trans hpos, ended_explen _, ended_sten _, hstored _ (ended_buf _),
      hskipped _ (ended_buf _), fun hlt => absurd hlast hlt.ne, fun _ => hdone⟩
  · next hmore =>
    exact ⟨hpos, rfl, rfl, hstored _ rfl, hskipped _ rfl, fun _ => ⟨hst, rfl, rfl, rfl, rfl⟩,
      fun hlast => absurd hlast hmore⟩

/-! ### The table of transitions -/

/-- A word that selects an operation finds the block live and selects a receive operation of its row. -/
theorem selected_of_decodeRx {w : Wire} {ctx : RxContext} {x : XWord} {i : Instr} (hdecode : decodeRx w ctx x = .op i) :
    ctx.fatal = false ∧ i.selectableIn ctx = true ∧ i.isReceive = true := by
  obtain ⟨-, hsel, hi⟩ := (decodedOperationIsWellFormed w ctx i).1 x hdecode
  refine ⟨Bool.eq_false_iff.2 fun hf => ?_, hsel, hi⟩
  rw [decodeRx_fatal hf] at hdecode
  cases hdecode

/-- Where a content byte leads (R146, the outcome C): from `FirstContentByte` and `LaterContentByte`. -/
theorem exec_content_transition {s : State} {i : Instr} {c : Byte} (h : s.Inv) (hf : s.fatal = false)
    (hst : s.st ≠ .idle) (hi : IsContent s i c) :
    ∃ t, exec i s = .next t ∧ ∀ c', IsContent s i c' → t.esc = false ∧ t.fwin = (eventEnd false s).fwin ∧
      (s.st = .gotStart → t.st = if lenOf s.cfg c' s.myaddr ≤ 1 then .idle else .reading) ∧
      (s.st = .reading → t.st = if s.pos.toNat + 1 = s.explen.toNat then .idle else .reading) := by
  cases hs : s.st with
  | idle => exact absurd hs hst
  | corrupt => exact absurd hs h.notCorrupt
  | gotStart =>
    obtain ⟨t, ht, ⟨-, -, -, -, -, -, -, hesc, hfwin, -⟩, hzero, -, hlong, hone⟩ :=
      firstContentByte s i c h hf hs hi
    refine ⟨t, ht, fun c' hi' => ⟨hesc, hfwin, fun _ => ?_, nofun⟩⟩
    obtain rfl := isContent_unique hi hi'
    split
    · next hle =>
      rcases Nat.le_one_iff_eq_zero_or_eq_one.1 hle with hlen | hlen
      · exact (hzero hlen).1
      · exact (hone hlen).1
    · next hgt => exact (hlong (Nat.lt_of_not_le hgt)).1
  | reading =>
    obtain ⟨t, ht, ⟨-, -, -, -, -, -, -, hesc, hfwin, -⟩, -, -, -, -, -, hmore, hlast⟩ :=
      laterContentByte s i c h hf hs hi
    refine ⟨t, ht, fun _ _ => ⟨hesc, hfwin, nofun, fun _ => ?_⟩⟩
    obtain ⟨-, hposlt, -⟩ := h.readingPos hs
    split
    · next hend => exact (hlast hend).1
    · next hnot => exact (hmore (by omega)).1

/-- Settles O19, row by row. -/
theorem decoderTransitionTable : Obligations.DecoderTransitionTable := by
  unfold Obligations.DecoderTransitionTable
  intro s x i h hdecode
  obtain ⟨hf, hsel, hi⟩ := selected_of_decodeRx hdecode
  have hc := h.notCorrupt
  cases i with
  | rxerr flags data => exact ⟨_, exec_rxerr_live hf hc flags data, by simp [IsContent, eventEnd]⟩
  | rxstart => exact ⟨_, exec_rxstart_live hf hc, by simp [IsContent, eventEnd]⟩
  | rxskip data =>
    have hst : s.st = .idle := beq_iff_eq.1 (Bool.and_eq_true_iff.1 hsel).2
    exact ⟨_, exec_rxskip_live hf hc data, by simp [IsContent, eventEnd, hst, h.idleEsc hst]⟩
  | rxesc =>
    obtain ⟨-, -, hst, hesc⟩ := RxContext.inFrame_conditions hsel
    rw [Bool.not_eq_true'] at hesc
    exact ⟨_, exec_rxesc_live hf hc, by simpa [IsContent, eventEnd] using ⟨hst, hesc⟩⟩
  | rxescbad data =>
    obtain ⟨-, -, hst, hesc⟩ := RxContext.inFrame_conditions hsel
    exact ⟨_, exec_rxescbad_live hf hc data, by simpa [IsContent, eventEnd] using ⟨hst, hesc⟩⟩
  | rxesc0 =>
    obtain ⟨-, -, hst, hesc⟩ := RxContext.inFrame_conditions hsel
    obtain ⟨t, ht, hrow⟩ := exec_content_transition h hf hst (.inr (.inl ⟨rfl, rfl⟩))
    exact ⟨t, ht, nofun, nofun, nofun, nofun, nofun, fun _ => ⟨hst, hesc⟩, nofun, hrow⟩
  | rxesc1 =>
    obtain ⟨-, -, hst, hesc⟩ := RxContext.inFrame_conditions hsel
    obtain ⟨t, ht, hrow⟩ := exec_content_transition h hf hst (.inr (.inr ⟨rfl, rfl⟩))
    exact ⟨t, ht, nofun, nofun, nofun, nofun, nofun, fun _ => ⟨hst, hesc⟩, nofun, hrow⟩
  | rxlit data =>
    obtain ⟨-, -, hst, hesc⟩ := RxContext.inFrame_conditions hsel
    rw [Bool.not_eq_true'] at hesc
    obtain ⟨t, ht, hrow⟩ := exec_content_transition h hf hst (.inl ⟨rfl, hesc⟩)
    exact ⟨t, ht, nofun, nofun, nofun, nofun, nofun, by simp, fun _ => ⟨hst, hesc⟩, hrow⟩
  | _ => cases hi

/-! ### Runs -/

/-- The invariants hold along a run (R40). -/
theorem runFor_inv {s t : State} {n : Nat} (h : s.Inv) (hrun : s.runFor n = .next t) : t.Inv := by
  induction n generalizing s with
  | zero =>
    obtain rfl : s = t := Host.Outcome.next.inj hrun
    exact h
  | succ n ih =>
    obtain ⟨u, hstep⟩ := step_of_coreRun_succ Sys2Proof.core hrun
    exact ih (stepKeepsInvariant s u h hstep) ((coreRun_succ Sys2Proof.core hstep n).symm.trans hrun)

/-- A frame's run is its START_MARK's step and the run of its stuffed bytes (R117). -/
theorem runInputs_frame {s t : State} (h : s.Inv) (hf : s.fatal = false) {p : List Byte}
    (hrest : (State.aged { s with
        inputs := p.flatMap (stuff s.cfg.wire), st := .gotStart, esc := false, pos := 0 }).runFor
      (p.flatMap (stuff s.cfg.wire)).length = .next t) : runInputs s (frame s.cfg.wire p) = .next t := by
  have hstart := step_startMark (h.takeInputs (frame s.cfg.wire p)) hf rfl
  calc runInputs s (frame s.cfg.wire p)
      = State.runFor { s with inputs := frame s.cfg.wire p } (1 + (p.flatMap (stuff s.cfg.wire)).length) := by
        rw [Nat.add_comm]; rfl
    _ = .next t := (runFor_add (runFor_one hstart) _).trans hrest

/-! ### A frame on a full ring -/

/-- The block awaits the byte `c` of a frame of `len` bytes that finds the ring full, `n` bytes before it: it is the
frame's first byte (R141) or a later one (R142). -/
structure AwaitsDropped (s : State) (n len : Nat) (c : Byte) : Prop where
  inv : s.Inv
  live : s.fatal = false
  esc : s.esc = false
  full : s.pending = s.cfg.nbuf
  inside : n < len
  place : (s.st = .gotStart ∧ n = 0 ∧ lenOf s.cfg c s.myaddr = len) ∨
    (s.st = .reading ∧ s.pos.toNat = n ∧ s.explen.toNat = len)

/-- The state in the middle of a frame that is not stored, at offset `pos` (R29). -/
def State.dropping (s : State) (pos explen : Byte) : State :=
  { s with st := .reading, sten := false, pos := pos, explen := explen }

/-- The state after such a frame: the overflow flag is set (R143, R145). -/
def State.dropped (s : State) (pos explen : Byte) : State :=
  { s.dropping pos explen with st := .idle, ovf := true }

namespace AwaitsDropped

variable {s : State} {n len : Nat} {c : Byte}

theorem not_idle (a : AwaitsDropped s n len c) : s.st ≠ .idle := by
  rcases a.place with ⟨hst, -⟩ | ⟨hst, -⟩ <;> simp [hst]

/-- With the ring full no frame is stored (R40 (g)). -/
theorem sten_eq (a : AwaitsDropped s n len c) (hst : s.st = .reading) : s.sten = false :=
  Bool.eq_false_iff.2 fun hs => (a.inv.readingSten hst hs).ne a.full

/-- What the frame's byte does: it is counted, and the last one ends the frame (R141 to R143). -/
theorem content_eq (a : AwaitsDropped s n len c) :
    ∃ pos explen, pos.toNat = n + 1 ∧ explen.toNat = len ∧
      s.content c = .ok (if n + 1 = len then s.dropped pos explen else s.dropping pos explen) := by
  rcases a.place with ⟨hst, rfl, hlen⟩ | ⟨hst, hpos, hexplen⟩
  · have hzero : lenOf s.cfg c s.myaddr ≠ 0 := hlen ▸ a.inside.ne'
    have hfull : decide (s.pending < s.cfg.nbuf) = false := decide_eq_false a.full.not_lt
    refine ⟨1, BitVec.ofNat 8 (lenOf s.cfg c s.myaddr), rfl, (lenOf_toNat _ _ _).trans hlen, ?_⟩
    have hbyte : s.withFirstByte c = s.dropping 1 (BitVec.ofNat 8 (lenOf s.cfg c s.myaddr)) := by
      rw [State.withFirstByte, hfull]; rfl
    rw [content_first a.inv hst hzero, hbyte, ended_dropped _ rfl, hlen]
    simp only [Nat.zero_add, eq_comm (a := len)]
    rfl
  · have hsten := a.sten_eq hst
    refine ⟨s.pos + 1, s.explen, hpos ▸ (a.inv.pos_succ hst).1, hexplen, ?_⟩
    have hbyte : s.withLaterByte c = s.dropping (s.pos + 1) s.explen := by
      rw [State.withLaterByte, if_neg (Bool.eq_false_iff.1 hsten), State.dropping, ← hst, ← hsten]
    rw [content_later a.inv hst, hbyte, ended_dropped _ rfl, hpos, hexplen]
    rfl

/-- The byte stuffed and run: the same, with a window aged by it. -/
theorem runFor_byte (a : AwaitsDropped s n len c) (h0 : s.cfg.wire.escLit0 = s.cfg.wire.escapeMark)
    (h1 : s.cfg.wire.escLit1 = s.cfg.wire.startMark) {rest : List Input}
    (hin : s.inputs = stuff s.cfg.wire c ++ rest) :
    ∃ pos explen fwin, pos.toNat = n + 1 ∧ explen.toNat = len ∧
      s.runFor (stuff s.cfg.wire c).length =
        .next { (if n + 1 = len then s.dropped pos explen else s.dropping pos explen) with
          inputs := rest, fwin := fwin } := by
  obtain ⟨fwin, hinv, hrun⟩ := runFor_stuff a.inv a.live a.not_idle a.esc h0 h1 hin
  have a' : AwaitsDropped { s with inputs := rest, fwin := fwin } n len c := { a with inv := hinv }
  obtain ⟨pos, explen, hpos, hexplen, hcontent⟩ := a'.content_eq
  refine ⟨pos, explen, shiftWindow s.cfg.failWindow fwin false, hpos, hexplen, (hrun _ hcontent).trans ?_⟩
  split <;> rfl

end AwaitsDropped

/-- The rest of a frame that finds the ring full, stuffed and run, drops it: by induction on the bytes still to come. -/
theorem runFor_dropped {s : State} {n len : Nat} {c : Byte} {cs : List Byte} (a : AwaitsDropped s n len c)
    (hlen : n + cs.length + 1 = len) (h0 : s.cfg.wire.escLit0 = s.cfg.wire.escapeMark)
    (h1 : s.cfg.wire.escLit1 = s.cfg.wire.startMark) (hin : s.inputs = (c :: cs).flatMap (stuff s.cfg.wire)) :
    ∃ pos explen fwin, s.runFor ((c :: cs).flatMap (stuff s.cfg.wire)).length =
      .next { s.dropped pos explen with inputs := [], fwin := fwin } := by
  obtain ⟨pos, explen, fwin, hpos, hexplen, hrun⟩ := a.runFor_byte h0 h1 hin
  have hinv := runFor_inv a.inv hrun
  rw [List.flatMap_cons, List.length_append, runFor_add hrun]
  cases cs with
  | nil =>
    rw [List.length_nil, Nat.add_zero] at hlen
    rw [if_pos hlen]
    exact ⟨pos, explen, fwin, rfl⟩
  | cons c' cs =>
    rw [List.length_cons] at hlen
    rw [if_neg (by omega)] at hinv ⊢
    have anext : AwaitsDropped { s.dropping pos explen with
        inputs := (c' :: cs).flatMap (stuff s.cfg.wire), fwin := fwin } (n + 1) len c' :=
      ⟨hinv, a.live, a.esc, a.full, by omega, .inr ⟨rfl, hpos, hexplen⟩⟩
    exact runFor_dropped anext (by omega) h0 h1 rfl
termination_by structural cs

/-- Settles O23: the START_MARK opens the frame, and its bytes are counted one by one and not stored. -/
theorem frameOnFullRingIsDropped : Obligations.FrameOnFullRingIsDropped := by
  unfold Obligations.FrameOnFullRingIsDropped
  intro s p c cs h hf hfull h0 h1 hp hlen
  subst hp
  have hawaits : AwaitsDropped (State.aged { s with
      inputs := (c :: cs).flatMap (stuff s.cfg.wire), st := .gotStart, esc := false, pos := 0 }) 0 (c :: cs).length c :=
    ⟨(h.takeInputs ((c :: cs).flatMap (stuff s.cfg.wire))).startFrame.aged hf, hf, rfl, hfull, Nat.succ_pos _,
      .inl ⟨rfl, rfl, hlen⟩⟩
  obtain ⟨pos, explen, fwin, hrest⟩ := runFor_dropped hawaits (by simp) h0 h1 rfl
  exact ⟨_, runInputs_frame h hf hrest, ⟨rfl, rfl, hf, rfl, rfl, rfl, rfl, rfl, rfl, rfl⟩, rfl, rfl, rfl, rfl, rfl, rfl⟩

/-! ### A rejected frame -/

/-- A clean event adds no failure to the window (R147). -/
theorem count_aged_le (s : State) : s.aged.fwin.count true ≤ s.fwin.count true := by
  have hcount := popcount_shift_clean s.cfg.failWindow s.fwin
  rwa [popcount_eq_count, popcount_eq_count] at hcount

/-- No byte of a stuffed frame after its START_MARK is a START_MARK (R118). -/
theorem ne_startMark_of_mem_stuff {w : Wire} (hw : w.legal = true) {b : Byte} {i : Input} (hi : i ∈ stuff w b) :
    ∃ d, i = rxByte d ∧ d ≠ w.startMark := by
  obtain ⟨hmarks, hcode0, hcode1, -⟩ := w.legal_iff.1 hw
  unfold stuff at hi
  split at hi
  · rcases List.mem_pair.1 hi with rfl | rfl
    · exact ⟨_, rfl, hmarks.symm⟩
    · exact ⟨_, rfl, hcode0⟩
  · split at hi
    · rcases List.mem_pair.1 hi with rfl | rfl
      · exact ⟨_, rfl, hmarks.symm⟩
      · exact ⟨_, rfl, hcode1⟩
    · exact ⟨_, List.mem_singleton.1 hi, ‹_›⟩

/-- A byte that is no START_MARK in IDLE (R132). -/
theorem step_skipped {s : State} {d : Byte} {rest : List Input} (h : s.Inv) (hf : s.fatal = false) (hst : s.st = .idle)
    (hd : d ≠ s.cfg.wire.startMark) (hin : s.inputs = rxByte d :: rest) :
    step s = .next (State.aged { s with inputs := rest }) := by
  rw [step_rx_op hin (decodeRx_idle hf (xFlags_xByte _) (xData_xByte _) hd hst)]
  exact onRx_clean (f := .ok) (h.takeInputs rest) hf rfl ⟨rfl, rfl, rfl⟩

/-- In IDLE bytes that are no START_MARK are skipped: by induction on them. -/
theorem runFor_skipped {s : State} {l : List Input} (h : s.Inv) (hf : s.fatal = false) (hst : s.st = .idle)
    (hl : ∀ i ∈ l, ∃ d, i = rxByte d ∧ d ≠ s.cfg.wire.startMark) (hin : s.inputs = l) :
    ∃ fwin, fwin.count true ≤ s.fwin.count true ∧ s.runFor l.length = .next { s with inputs := [], fwin := fwin } := by
  induction l generalizing s with
  | nil =>
    refine ⟨s.fwin, le_rfl, congrArg Host.Outcome.next ?_⟩
    rw [← hin]
  | cons i l ih =>
    obtain ⟨⟨d, rfl, hd⟩, htail⟩ := List.forall_mem_cons.1 hl
    have hstep := step_skipped h hf hst hd hin
    obtain ⟨fwin, hcount, hrun⟩ :=
      ih (s := State.aged { s with inputs := l }) ((h.takeInputs l).aged hf) hf hst htail rfl
    refine ⟨fwin, hcount.trans (count_aged_le { s with inputs := l }), ?_⟩
    rw [List.length_cons, Nat.add_comm, runFor_add (runFor_one hstep)]
    exact hrun

/-- The first byte of a rejected frame, stuffed: the block is back in IDLE, after one clean event or two (R141). -/
theorem runFor_rejected {s : State} {c : Byte} {rest : List Input} (h : s.Inv) (hf : s.fatal = false)
    (hst : s.st = .gotStart) (hesc : s.esc = false) (hlen : lenOf s.cfg c s.myaddr = 0)
    (h0 : s.cfg.wire.escLit0 = s.cfg.wire.escapeMark) (h1 : s.cfg.wire.escLit1 = s.cfg.wire.startMark)
    (hin : s.inputs = stuff s.cfg.wire c ++ rest) :
    ∃ fwin, fwin.count true ≤ s.fwin.count true ∧
      s.runFor (stuff s.cfg.wire c).length =
        .next (State.aged { s with inputs := rest, st := .idle, esc := false, fwin := fwin }) := by
  have hidle : s.st ≠ .idle := by simp [hst]
  have hmarked : ∀ l, State.Inv (State.aged { s with inputs := l, esc := true }) := fun l =>
    ((h.takeInputs l).openEscape hidle).aged hf
  unfold stuff at hin ⊢
  split at hin
  · next hb =>
    rw [if_pos hb]
    refine ⟨_, count_aged_le s, runFor_two (step_escapeMark h hf hidle hesc hin)
      (step_escCode0 (hmarked _) hf hidle rfl rfl ?_)⟩
    exact content_rejected (hmarked rest).closeEscape hst ((h0.trans hb.symm).symm ▸ hlen)
  · next hm =>
    split at hin
    · next hb =>
      rw [if_neg hm, if_pos hb]
      refine ⟨_, count_aged_le s, runFor_two (step_escapeMark h hf hidle hesc hin)
        (step_escCode1 (hmarked _) hf hidle rfl rfl ?_)⟩
      exact content_rejected (hmarked rest).closeEscape hst ((h1.trans hb.symm).symm ▸ hlen)
    · next hs =>
      rw [if_neg hm, if_neg hs, ← hesc]
      refine ⟨_, le_rfl, runFor_one (step_literal h hf hidle hesc hs hm hin ?_)⟩
      exact content_rejected (h.takeInputs rest) hst hlen

/-- Settles O24: the first content byte puts the block back into IDLE, and the bytes after it are skipped there. -/
theorem rejectedFrameLeavesNoTrace : Obligations.RejectedFrameLeavesNoTrace := by
  unfold Obligations.RejectedFrameLeavesNoTrace
  intro s c cs h hf h0 h1 hlen
  have hstarted := (h.takeInputs ((c :: cs).flatMap (stuff s.cfg.wire))).startFrame.aged hf
  obtain ⟨fwin, hcount, hfirst⟩ := runFor_rejected (rest := cs.flatMap (stuff s.cfg.wire)) hstarted hf rfl rfl hlen h0
    h1 rfl
  have hno : ∀ i ∈ cs.flatMap (stuff s.cfg.wire), ∃ d, i = rxByte d ∧ d ≠ s.cfg.wire.startMark := fun i hi => by
    obtain ⟨b, -, hi⟩ := List.mem_flatMap.1 hi
    exact ne_startMark_of_mem_stuff s.cfg.wire_legal hi
  obtain ⟨fwin', hcount', hskip⟩ := runFor_skipped (runFor_inv hstarted hfirst) hf rfl hno rfl
  have hrun : runInputs s (frame s.cfg.wire (c :: cs)) =
      .next { s with inputs := [], st := .idle, esc := false, pos := 0, fwin := fwin' } := by
    refine runInputs_frame h hf ?_
    rw [List.flatMap_cons, List.length_append]
    exact (runFor_add hfirst _).trans hskip
  exact ⟨_, hrun, ⟨rfl, rfl, hf, rfl, rfl, rfl, rfl, rfl, rfl, rfl⟩, rfl, ⟨rfl, rfl, rfl, rfl⟩,
    ((hcount'.trans (count_aged_le _)).trans hcount).trans (count_aged_le s)⟩

end Sys2Proof.Machine
end

section
/-! Proofs for the family 41_consumer.md: the answer of each receiver command, with its encoding, and what the commands
do while the block is fatal. -/

namespace Sys2Proof.Machine

open Sys2Proof.Claims

/-! ### How a command is encoded -/

/-- A command that reads no operand bits is encoded by its code alone (R101). -/
theorem encodedAs_of_lookup {n : Nat} {i : Instr} (hop : opcodeMap.lookup (BitVec.ofNat 8 n) = some fun _ _ => i) :
    EncodedAs n fun _ => i :=
  fun _ hn => decodeCmd_of_opNat hn hop

/-- A command that reads `b[7:0]` takes it from the number `b` (R106). -/
theorem encodedAs_lowByte {n : Nat} {g : Byte → Instr}
    (hop : opcodeMap.lookup (BitVec.ofNat 8 n) = some fun _ b => g (b.extractLsb' 0 8)) :
    EncodedAs n fun c => g (BitVec.ofNat 8 (bNat c)) := by
  intro c hn
  show decodeCmd c = .op (g (BitVec.ofNat 8 (bNat c)))
  rw [← extractLsb'_ofNat_low (m := 32) (by decide)]
  exact decodeCmd_of_opNat hn hop

/-! ### The answers while the block is fatal

POLL's is `exec_poll_fatal`. -/

/-- A command's outcome, by the claims' rendering of its response word (R108). -/
theorem next_respond (s : State) (x : Status) (r0 r1 : Word) (fl : Byte) :
    (.next (s.respond x r0 r1 fl) : Answer) = .next (answered s (statusCode x) fl r0 r1) :=
  congrArg _ (respond_eq_answered ..)

section Fatal

variable {s : State} (hf : s.fatal = true)
include hf

theorem exec_rdbyte_fatal (o : Byte) : exec (.rdbyte o) s = .next (answered s 0x09 0 0 0) :=
  (if_pos hf).trans (next_respond ..)

theorem exec_release_fatal : exec .release s = .next (answered s 0x09 0 0 0) :=
  (if_pos hf).trans (next_respond ..)

theorem exec_setaddr_fatal (a : Byte) : exec (.setaddr a) s = .next (answered s 0x09 0 0 0) :=
  (if_pos hf).trans (next_respond ..)

end Fatal

/-! ### The commands that do not look at `fatal` -/

theorem execCalw_withFatal {k : BitVec 4} {v : Word} {s t : State} (h : execCalw k v s = .next t) (f : Bool) :
    execCalw k v { s with fatal := f } = .next { t with fatal := f } := by
  unfold execCalw at h ⊢
  split at h
  · next hk => cases h; exact if_pos hk
  · next hk => cases h; exact if_neg hk

theorem execCalr_withFatal {k : BitVec 4} {s t : State} (h : execCalr k s = .next t) (f : Bool) :
    execCalr k { s with fatal := f } = .next { t with fatal := f } := by
  unfold execCalr at h ⊢
  split at h
  · next hk => cases h; exact if_pos hk
  · next hk =>
    rw [if_neg hk]
    split at h
    · next hv => cases h; exact if_pos hv
    · next hv => cases h; exact if_neg hv

theorem execCorrect_withFatal {x y lum : Half} {s t : State} (h : execCorrect x y lum s = .next t) (f : Bool) :
    execCorrect x y lum { s with fatal := f } = .next { t with fatal := f } := by
  unfold execCorrect at h ⊢
  split at h
  · next hc => cases h; exact if_pos hc
  · next hc => cases h; exact if_neg hc

/-- NOP, the corrector's and the fixed-point commands answer alike whatever `fatal` is (R177). -/
theorem exec_withFatal {s t : State} {i : Instr} (hi : i.isReceive = false) (hpoll : i ≠ .poll)
    (hrdbyte : ∀ o, i ≠ .rdbyte o) (hrelease : i ≠ .release) (hsetaddr : ∀ a, i ≠ .setaddr a)
    (h : exec i s = .next t) (f : Bool) : exec i { s with fatal := f } = .next { t with fatal := f } := by
  cases i with
  | poll => exact absurd rfl hpoll
  | rdbyte o => exact absurd rfl (hrdbyte o)
  | release => exact absurd rfl hrelease
  | setaddr a => exact absurd rfl (hsetaddr a)
  | calw => exact execCalw_withFatal h f
  | calr => exact execCalr_withFatal h f
  | correct => exact execCorrect_withFatal h f
  | nop | qadd | qsub | qmul | qdiv | qcmp | qmin | qmax => cases h; rfl
  | _ => cases hi

/-! ### POLL's result field -/

/-- `pending` fits its eight bits of POLL's result field (R6, R40 (a)). -/
theorem State.Inv.pending_lt {s : State} (h : s.Inv) : s.pending < 256 :=
  (h.pendingLe.trans s.cfg.nbuf_le).trans_lt (by decide)

/-- `pending` stands at the top of POLL's result field (R111). -/
theorem pollWord_pending {pending : Nat} (hp : pending < 256) (len : Byte) (fatal ovf : Bool) :
    (pollWord pending len fatal ovf).toNat / 65536 = pending := by
  have havail := (decide (pending > 0)).toNat_lt
  have hovf := ovf.toNat_lt
  have hfatal := fatal.toNat_lt
  have hlen := len.isLt
  rw [pollWord_toNat hp]
  omega

/-- Settles O34: command by command; of the commands R177 does not name, none reads `fatal`. -/
theorem receiverCommandsAnswerFatal : Obligations.ReceiverCommandsAnswerFatal := by
  unfold Obligations.ReceiverCommandsAnswerFatal
  constructor
  · rintro s i h hf - (rfl | ⟨o, rfl⟩ | rfl | ⟨a, rfl⟩)
    · refine ⟨_, (exec_poll_fatal h hf).trans (next_respond ..), fun _ => ?_⟩
      exact pollWord_pending h.pending_lt _ _ _
    · exact ⟨0, exec_rdbyte_fatal hf o, nofun⟩
    · exact ⟨0, exec_release_fatal hf, nofun⟩
    · exact ⟨0, exec_setaddr_fatal hf a, nofun⟩
  · intro s t i f hi hpoll hrdbyte hrelease hsetaddr h
    exact exec_withFatal hi hpoll hrdbyte hrelease hsetaddr h f

/-! ### NOP and POLL -/

/-- Settles O28: NOP is its response and nothing else. -/
theorem nopAnswersOk : Obligations.NopAnswersOk := by
  unfold Obligations.NopAnswersOk
  exact ⟨encodedAs_of_lookup rfl, fun s => next_respond s .ok 0 0 0⟩

/-- POLL's result field as the number its fields make (R111, R171). -/
theorem pollWord_eq_ofNat {s : State} (h : s.Inv) :
    pollWord s.pending s.reportedLen s.fatal s.ovf =
      BitVec.ofNat 32 ((decide (s.pending > 0)).toNat + 2 * s.ovf.toNat + 4 * s.fatal.toNat +
        256 * (if s.pending > 0 then (s.lenAt s.rd).toNat else 0) + 65536 * s.pending) := by
  have hlen : s.reportedLen.toNat = if s.pending > 0 then (s.lenAt s.rd).toNat else 0 :=
    apply_ite BitVec.toNat (s.pending > 0) (s.lenAt s.rd) 0
  rw [← hlen, ← pollWord_toNat h.pending_lt, BitVec.ofNat_toNat, BitVec.setWidth_eq]

/-- Settles O29: fatal, POLL leaves `ovf`; live, it leaves it clear. -/
theorem pollReportsAndClearsOverflow : Obligations.PollReportsAndClearsOverflow := by
  unfold Obligations.PollReportsAndClearsOverflow
  refine ⟨encodedAs_of_lookup rfl, fun s h => ?_⟩
  rw [← pollWord_eq_ofNat h]
  rcases Bool.eq_false_or_eq_true s.fatal with hf | hf
  · have hovf : (s.ovf && s.fatal) = s.ovf := by rw [hf, Bool.and_true]
    rw [hovf, if_pos hf]
    exact (exec_poll_fatal h hf).trans (next_respond ..)
  · have hovf : (s.ovf && s.fatal) = false := by rw [hf, Bool.and_false]
    rw [hovf, if_neg (Bool.eq_false_iff.1 hf), exec_poll_live h hf, next_respond]
    cases s.ovf <;> rfl

/-! ### RDBYTE -/

/-- RDBYTE of a live block with nothing pending. -/
theorem exec_rdbyte_empty {s : State} (hf : s.fatal = false) (hp : s.pending = 0) (o : Byte) :
    exec (.rdbyte o) s = .next (answered s 0x01 0 0 0) :=
  (if_neg (Bool.eq_false_iff.1 hf)).trans ((if_pos hp).trans (next_respond ..))

/-- RDBYTE of a live block with a frame pending: the offset against the frame's length decides. -/
theorem exec_rdbyte_pending {s : State} (h : s.Inv) (hf : s.fatal = false) (hp : s.pending ≠ 0) (o : Byte) :
    exec (.rdbyte o) s = if (s.lenAt s.rd).toNat ≤ o.toNat then .next (answered s 0x01 0 0 0)
      else .next (answered s 0x00 0 (BitVec.ofNat 32 (s.cell s.rd o.toNat).toNat) 0) := by
  show execRdbyte o s = _
  unfold execRdbyte
  rw [if_neg (Bool.eq_false_iff.1 hf), if_neg hp, h.readLen_rd]
  dsimp only
  split
  · exact next_respond ..
  · next ho =>
    rw [h.loadByte_rd hp (Nat.lt_of_not_ge ho), BitVec.ofNat_toNat]
    exact next_respond ..

/-- Settles O31: fatal, nothing pending, and the offset against the frame's length. -/
theorem rdbyteReadsOldestPendingFrame : Obligations.RdbyteReadsOldestPendingFrame := by
  unfold Obligations.RdbyteReadsOldestPendingFrame
  refine ⟨encodedAs_lowByte rfl, fun s o h => ⟨fun hf => exec_rdbyte_fatal hf o, ?_, ?_⟩⟩
  · intro hf hout
    by_cases hp : s.pending = 0
    · exact exec_rdbyte_empty hf hp o
    · exact (exec_rdbyte_pending h hf hp o).trans (if_pos (hout.resolve_left hp))
  · intro hf hp ho
    exact (exec_rdbyte_pending h hf hp.ne' o).trans (if_neg (Nat.not_le.2 ho))

/-! ### RELEASE and SETADDR -/

/-- Settles O32: fatal, nothing pending, and a frame to release. -/
theorem releasePassesOldestFrame : Obligations.ReleasePassesOldestFrame := by
  unfold Obligations.ReleasePassesOldestFrame
  refine ⟨encodedAs_of_lookup rfl, fun s => ⟨exec_release_fatal, fun hf hp => ?_, fun hf hp => ?_⟩⟩
  · exact (if_neg (Bool.eq_false_iff.1 hf)).trans ((if_pos hp).trans (next_respond ..))
  · exact (if_neg (Bool.eq_false_iff.1 hf)).trans ((if_neg hp.ne').trans (next_respond ..))

/-- Settles O33: fatal or live. -/
theorem setaddrWritesModuleAddress : Obligations.SetaddrWritesModuleAddress := by
  unfold Obligations.SetaddrWritesModuleAddress
  refine ⟨encodedAs_lowByte rfl, fun s a => ⟨fun hf => exec_setaddr_fatal hf a, fun hf => ?_⟩⟩
  exact (if_neg (Bool.eq_false_iff.1 hf)).trans (next_respond ..)

end Sys2Proof.Machine
end

section
/-! Proofs for the family 42_fixedpoint.md: the encoding of the two-operand commands, and the answer of each Q16.16
command. -/

namespace Sys2Proof.Machine

open Sys2Proof.Claims

/-! ### Encoding and saturated answers -/

/-- A command whose operands are all of `a` and `b` takes them as the numbers they are (R101, R106). -/
theorem encodedAs_operands {n : Nat} {f : Word → Word → Instr} (hop : opcodeMap.lookup (BitVec.ofNat 8 n) = some f) :
    EncodedAs n fun c => f (BitVec.ofNat 32 (aNat c)) (BitVec.ofNat 32 (bNat c)) :=
  fun _ hn => decodeCmd_of_opNat hn hop

theorem sat32_toInt_eq_clip (z : Int) : (sat32 z).toInt = clip z := sat32_toInt z

theorem satFlag_eq_clips (z : Int) : satFlag z = clips z := satFlag_eq z

theorem flagsByte_eq_flagBits (sat divz degen : Bool) : flagsByte sat divz degen = flagBits sat divz degen :=
  flagsByte_eq sat divz degen

/-- A Q16.16 result's answer, by the claims' rendering of its flags (R110) and its response word (R108). -/
theorem answerQ_eq_answered (r : QResult) (s : State) :
    answerQ r s = .next (answered s 0x00 (flagBits r.sat r.divz false) r.value 0) := by
  rw [← flagsByte_eq_flagBits]
  exact next_respond ..

/-- The answer of the overflow law (R191): SAT exactly when the exact result is clipped. -/
theorem answerQ_saturate (z : Int) (s : State) :
    answerQ (saturate z) s = .next (answered s 0x00 (flagBits (clips z) false false) (sat32 z) 0) := by
  rw [answerQ_eq_answered, saturate_sat, satFlag_eq_clips, saturate_divz, saturate_value]

/-! ### QDIV -/

/-- Division rounded toward zero: the quotient of the magnitudes, floored, with the sign of the exact quotient. -/
theorem tdiv_truncates (m : Int) {d : Int} (hd : d ≠ 0) :
    (m.tdiv d).natAbs * d.natAbs ≤ m.natAbs ∧ m.natAbs < ((m.tdiv d).natAbs + 1) * d.natAbs ∧
      0 ≤ m.tdiv d * (m * d) := by
  have hquot : (m.tdiv d).natAbs = m.natAbs / d.natAbs := Int.natAbs_tdiv m d
  have hsign : (m.tdiv d).sign = 0 ∨ (m.tdiv d).sign = (m * d).sign := by
    rw [Int.sign_tdiv, Int.sign_mul]
    exact ite_eq_or_eq ..
  refine ⟨?_, ?_, ?_⟩
  · rw [hquot]
    exact Nat.div_mul_le_self ..
  · rw [hquot, mul_comm]
    exact Nat.lt_mul_div_succ _ (Int.natAbs_pos.2 hd)
  · rw [← Int.sign_nonneg_iff, Int.sign_mul]
    rcases hsign with h | h
    · rw [h, zero_mul]
    · rw [h]
      exact mul_self_nonneg _

/-- Division by zero saturates by the dividend's sign. -/
theorem qDiv_zero (a : Word) :
    qDiv a 0 = { value := if 0 ≤ a.toInt then qMaxV else qMinV, sat := true, divz := true } :=
  if_pos BitVec.toInt_zero

/-- A zero divisor: the extreme of the dividend's sign, with SAT and DIVZ. -/
theorem exec_qdiv_zero (s : State) (a : Word) :
    exec (.qdiv a 0) s = .next (answered s 0x00 0x03 (if 0 ≤ a.toInt then 0x7FFFFFFF else 0x80000000) 0) := by
  show answerQ (qDiv a 0) s = _
  rw [qDiv_zero, answerQ_eq_answered]
  rfl

/-- A nonzero divisor: the quotient rounded toward zero, saturated. -/
theorem exec_qdiv_nonzero {b : Word} (hb : b.toInt ≠ 0) (s : State) (a : Word) :
    let z := Int.tdiv (a.toInt * 65536) b.toInt
    exec (.qdiv a b) s = .next (answered s 0x00 (flagBits (clips z) false false) (sat32 z) 0) := by
  show answerQ (qDiv a b) s = _
  rw [qDiv_eq hb]
  exact answerQ_saturate ..

/-- Settles O39, by whether the divisor is zero. -/
theorem qdivTruncatesAndSaturates : Obligations.QdivTruncatesAndSaturates := by
  unfold Obligations.QdivTruncatesAndSaturates
  refine ⟨encodedAs_operands rfl, fun s a b => ⟨?_, fun hb => ?_⟩⟩
  · rintro rfl
    exact exec_qdiv_zero s a
  · have hd : b.toInt ≠ 0 := fun h => hb (BitVec.toInt_inj.1 (h.trans BitVec.toInt_zero.symm))
    obtain ⟨hle, hlt, hsign⟩ := tdiv_truncates (a.toInt * 65536) hd
    rw [Int.natAbs_mul] at hle hlt
    refine ⟨_, _, hle, hlt, ?_, exec_qdiv_nonzero hd s a, sat32_toInt_eq_clip _⟩
    rw [mul_right_comm, ← mul_assoc] at hsign
    exact nonneg_of_mul_nonneg_left hsign (by decide)

/-! ### QADD, QSUB and QMUL -/

/-- Settles O37: both are the overflow law on the exact result. -/
theorem qaddAndQsubSaturate : Obligations.QaddAndQsubSaturate := by
  unfold Obligations.QaddAndQsubSaturate
  refine ⟨encodedAs_operands rfl, encodedAs_operands rfl, fun s a b => ⟨?_, ?_⟩⟩
  · exact ⟨_, answerQ_saturate (a.toInt + b.toInt) s, sat32_toInt_eq_clip _⟩
  · exact ⟨_, answerQ_saturate (a.toInt - b.toInt) s, sat32_toInt_eq_clip _⟩

/-- The product's saturated answer: the exact product, floored to units of 1/65536. -/
theorem exec_qmul (s : State) (a b : Word) :
    let z := a.toInt * b.toInt / 65536
    exec (.qmul a b) s = .next (answered s 0x00 (flagBits (clips z) false false) (sat32 z) 0) := by
  show answerQ (qMul a b) s = _
  rw [qMul_eq]
  exact answerQ_saturate ..

/-- Settles O38: floor division by 65536 satisfies the two inequalities. -/
theorem qmulFloorsAndSaturates : Obligations.QmulFloorsAndSaturates := by
  unfold Obligations.QmulFloorsAndSaturates
  refine ⟨encodedAs_operands rfl, fun s a b => ⟨_, _, ?_, ?_, exec_qmul s a b, sat32_toInt_eq_clip _⟩⟩
  · exact Int.mul_ediv_self_le (by decide)
  · rw [mul_add, mul_one]
    exact Int.lt_mul_ediv_self_add (by decide)

/-! ### QCMP, QMIN and QMAX -/

/-- Settles O40: the answer is `qCmp`, the sign of the difference. -/
theorem qcmpAnswersSign : Obligations.QcmpAnswersSign := by
  unfold Obligations.QcmpAnswersSign
  exact ⟨encodedAs_operands rfl, fun s a b => ⟨_, next_respond s .ok (qCmp a b) 0 0, qCmp_toInt a b⟩⟩

/-- Settles O41: the answers are `qMin` and `qMax`, each one of its operands. -/
theorem qminAndQmaxAreSigned : Obligations.QminAndQmaxAreSigned := by
  unfold Obligations.QminAndQmaxAreSigned
  refine ⟨encodedAs_operands rfl, encodedAs_operands rfl, fun s a b => ⟨?_, ?_⟩⟩
  · exact ⟨_, next_respond s .ok (qMin a b) 0 0, qMin_toInt a b, qMin_mem a b⟩
  · exact ⟨_, next_respond s .ok (qMax a b) 0 0, qMax_toInt a b, qMax_mem a b⟩

end Sys2Proof.Machine
end

section
/-! Proofs for the family 43_color_corrector.md: the calibration registers, and the transform against its steps in exact
integers. -/

namespace Sys2Proof.Machine

open Sys2Proof.Claims

/-! ### How the corrector's commands are encoded -/

theorem encodedAs_calw : EncodedAs 0x10 fun c => .calw (BitVec.ofNat 4 (aNat c)) (BitVec.ofNat 32 (bNat c)) := by
  intro c hop
  obtain ⟨-, -, -, -, -, hcalw, -⟩ := commandWordDecodesByOpcodeMap c
  exact hcalw hop

theorem encodedAs_calr : EncodedAs 0x11 fun c => .calr (BitVec.ofNat 4 (aNat c)) := by
  intro c hop
  obtain ⟨-, -, -, -, -, -, hcalr, -⟩ := commandWordDecodesByOpcodeMap c
  exact hcalr hop

theorem encodedAs_correct : EncodedAs 0x12 fun c =>
    .correct (BitVec.ofNat 16 (aNat c / 65536)) (BitVec.ofNat 16 (aNat c)) (BitVec.ofNat 16 (bNat c)) := by
  intro c hop
  obtain ⟨-, -, -, -, -, -, -, hcorrect, -⟩ := commandWordDecodesByOpcodeMap c
  exact hcorrect hop

/-! ### Reading a calibration register after a write -/

theorem readCal_writeCal_self (s : State) {i : Nat} (hi : i < 12) (v : Word) : (s.writeCal i v).readCal i = v := by
  simp [State.readCal, Vector.getD, hi]

theorem readCal_writeCal_ne (s : State) {i j : Nat} (hj : j ≠ i) (v : Word) :
    (s.writeCal i v).readCal j = s.readCal j := by
  simp [State.readCal, Vector.getD, hj.symm]

/-- A write sets its register's valid bit and no other (R210). -/
theorem calValid_writeCal (s : State) {i : Nat} (hi : i < 12) (v : Word) (j : Nat) :
    (s.writeCal i v).calValid j = (s.calValid j || decide (j = i)) := by
  have hbit : (1#12 <<< i).getLsbD j = decide (j = i) := by
    rw [Bool.eq_iff_iff]
    simp [BitVec.getLsbD_shiftLeft]
    omega
  rw [State.calValid, writeCal_calv, BitVec.getLsbD_or, hbit]
  rfl

/-! ### CALW and CALR -/

/-- Settles O42: a write is read back, and every other register and the rest of the state are kept. -/
theorem calwWritesOneRegister : Obligations.CalwWritesOneRegister := by
  unfold Obligations.CalwWritesOneRegister
  refine ⟨encodedAs_calw, fun s i v => ⟨fun hi => ?_, fun hi => ?_⟩⟩
  · exact (if_pos hi).trans (next_respond ..)
  · have hi' : i.toNat < 12 := Nat.lt_succ_of_le hi
    refine ⟨s.writeCal i.toNat v, (if_neg (Nat.not_lt.2 hi)).trans (next_respond ..),
      readCal_writeCal_self s hi' v, ?_, fun j hj => ⟨readCal_writeCal_ne s hj v, ?_⟩, rfl⟩
    · rw [calValid_writeCal s hi', decide_eq_true rfl, Bool.or_true]
    · rw [calValid_writeCal s hi', decide_eq_false hj, Bool.or_false]

/-- Settles O43: by the index and the register's valid bit. -/
theorem calrReadsWrittenRegister : Obligations.CalrReadsWrittenRegister := by
  unfold Obligations.CalrReadsWrittenRegister
  refine ⟨encodedAs_calr, fun s i => ⟨fun hi => ?_, fun hi hv => ?_, fun hi hv => ?_⟩⟩
  · exact (if_pos hi).trans (next_respond ..)
  · exact (if_neg (Nat.not_lt.2 hi)).trans ((if_neg (Bool.eq_false_iff.1 hv)).trans (next_respond ..))
  · exact (if_neg (Nat.not_lt.2 hi)).trans ((if_pos hv).trans (next_respond ..))

/-! ### CORRECT without a full calibration -/

/-- R219. -/
theorem exec_correct_of_not_calibrated {s : State} (hs : ¬ Calibrated s) (x y lum : Half) :
    exec (.correct x y lum) s = .next (answered s 0x03 0 0 0) :=
  (if_pos (mt (calibrated_iff_calv s).2 hs)).trans (next_respond ..)

/-- Settles O44: one register unwritten is no full calibration. -/
theorem correctNeedsFullCalibration : Obligations.CorrectNeedsFullCalibration := by
  unfold Obligations.CorrectNeedsFullCalibration
  rintro s x y lum ⟨i, hi, hv⟩
  exact exec_correct_of_not_calibrated (fun hs => Bool.eq_false_iff.1 hv (hs i hi)) x y lum

/-! ### The primitives by the claims' integer functions -/

theorem clamp01_toInt_eq_clampZ (v : Word) : (clamp01 v).toInt = clampZ v.toInt := clamp01_toInt v

/-- A Q16.16 value needs no clipping. -/
theorem clip_toInt (a : Word) : clip a.toInt = a.toInt := by
  obtain ⟨hlo, hhi⟩ := toInt_range a
  unfold clip
  omega

theorem clips_toInt (a : Word) : clips a.toInt = false := decide_eq_false (not_not_intro (clip_toInt a))

theorem qAdd_toInt (a b : Word) : (qAdd a b).value.toInt = clip (a.toInt + b.toInt) := sat32_toInt_eq_clip _

theorem qAdd_sat (a b : Word) : (qAdd a b).sat = clips (a.toInt + b.toInt) := satFlag_eq_clips _

theorem qMul_toInt (a b : Word) : (qMul a b).value.toInt = clip (mulZ a.toInt b.toInt) := by
  rw [qMul_eq]
  exact sat32_toInt_eq_clip _

theorem qMul_sat (a b : Word) : (qMul a b).sat = clips (mulZ a.toInt b.toInt) := by
  rw [qMul_eq]
  exact satFlag_eq_clips _

theorem qDiv_toInt {b : Word} (hb : b.toInt ≠ 0) (a : Word) :
    (qDiv a b).value.toInt = clip (divZ a.toInt b.toInt) := by
  rw [qDiv_eq hb]
  exact sat32_toInt_eq_clip _

theorem qDiv_sat {b : Word} (hb : b.toInt ≠ 0) (a : Word) : (qDiv a b).sat = clips (divZ a.toInt b.toInt) := by
  rw [qDiv_eq hb]
  exact satFlag_eq_clips _

theorem toInt_eq_zero_iff (q : Word) : q.toInt = 0 ↔ q = qZero := by
  rw [← qZero_toInt, BitVec.toInt_inj]

/-! ### The transform's steps in integers -/

/-- A value on the way as the claims carry it: the integer, and whether anything was clipped. -/
def Sat.toInts (r : Sat) : Int × Bool := (r.value.toInt, r.sat)

/-- The sum R214 and R215 take, for a third term that is `p2` clipped. -/
theorem sumOfProducts_toInts (a0 b0 a1 b1 : Word) {c : Word} {p2 : Int} (hc : c.toInt = clip p2) :
    (sumOfProducts a0 b0 a1 b1 c (clips p2)).toInts =
      sumZ (mulZ a0.toInt b0.toInt) (mulZ a1.toInt b1.toInt) p2 := by
  simp only [sumOfProducts, Sat.toInts, sumZ, qAdd_toInt, qAdd_sat, qMul_toInt, qMul_sat, hc]

/-- Step 2 (R214). -/
theorem unscaledRatio_toInts (m0 m1 m2 : Word) (x y : Half) :
    (unscaledRatio m0 m1 m2 (toQ x) (toQ y)).toInts =
      sumZ (mulZ m0.toInt x.toNat) (mulZ m1.toInt y.toNat) m2.toInt := by
  rw [← toQ_toInt x, ← toQ_toInt y, ← sumOfProducts_toInts _ _ _ _ (clip_toInt m2).symm, clips_toInt]
  rfl

/-- Step 4 (R215). -/
theorem achievableY_toInts (q0 q1 q2 p0 p1 p2 : Word) :
    (achievableY q0 q1 q2 p0 p1 p2).toInts =
      sumZ (mulZ q0.toInt p0.toInt) (mulZ q1.toInt p1.toInt) (mulZ q2.toInt p2.toInt) := by
  rw [← sumOfProducts_toInts _ _ _ _ (qMul_toInt q2 p2), ← qMul_sat]
  rfl

/-- One turn of step 5's loop for a ratio that is not zero (R217). -/
theorem limitScale_of_ne_zero (m : Sat) {q : Word} (hq : q.toInt ≠ 0) :
    (limitScale m q).value.toInt = min m.value.toInt (clip (divZ 65536 q.toInt)) ∧
      (limitScale m q).sat = (m.sat || clips (divZ 65536 q.toInt)) := by
  rw [limitScale, if_neg (mt (toInt_eq_zero_iff q).2 hq), ← qOne_toInt, ← qDiv_toInt hq, ← qDiv_sat hq]
  exact ⟨qMin_toInt _ _, rfl⟩

/-- One turn of step 5's loop for a zero ratio. -/
theorem limitScale_of_zero (m : Sat) {q : Word} (hq : q.toInt = 0) : limitScale m q = m :=
  if_pos ((toInt_eq_zero_iff q).1 hq)

/-- Step 5's loop takes the smallest reciprocal of the nonzero ratios (R217). -/
theorem foldl_limitScale_toInt (qs : List Word) (m : Sat) :
    (qs.foldl limitScale m).value.toInt =
      ((qs.map BitVec.toInt).filter (· ≠ 0)).foldl (fun m q => min m (clip (divZ 65536 q))) m.value.toInt := by
  induction qs generalizing m with
  | nil => rfl
  | cons q qs ih =>
    rw [List.foldl_cons, ih, List.map_cons]
    by_cases hq : q.toInt = 0
    · rw [limitScale_of_zero m hq, List.filter_cons_of_neg (by simpa using hq)]
    · rw [(limitScale_of_ne_zero m hq).1, List.filter_cons_of_pos (by simpa using hq), List.foldl_cons]

/-- Step 5's loop reports a clipped reciprocal of a nonzero ratio (R217). -/
theorem foldl_limitScale_sat (qs : List Word) (m : Sat) :
    (qs.foldl limitScale m).sat =
      (m.sat || (qs.map BitVec.toInt).any fun q => decide (q ≠ 0) && clips (divZ 65536 q)) := by
  induction qs generalizing m with
  | nil => exact (Bool.or_false _).symm
  | cons q qs ih =>
    rw [List.foldl_cons, ih, List.map_cons, List.any_cons]
    by_cases hq : q.toInt = 0
    · rw [limitScale_of_zero m hq, decide_eq_false (not_not_intro hq), Bool.false_and, Bool.false_or]
    · rw [(limitScale_of_ne_zero m hq).2, decide_eq_true hq, Bool.true_and, Bool.or_assoc]

theorem maxScale_toInt (q0 q1 q2 : Word) :
    (maxScale q0 q1 q2).value.toInt = maxScaleZ [q0.toInt, q1.toInt, q2.toInt] :=
  foldl_limitScale_toInt [q0, q1, q2] { value := qMaxV, sat := false }

theorem maxScale_sat (q0 q1 q2 : Word) :
    (maxScale q0 q1 q2).sat =
      [q0.toInt, q1.toInt, q2.toInt].any fun q => decide (q ≠ 0) && clips (divZ 65536 q) :=
  foldl_limitScale_sat [q0, q1, q2] { value := qMaxV, sat := false }

/-- Step 6 (R218). -/
theorem outputOf_drive_toNat (outmax : Half) (q eff : Word) :
    ((outputOf outmax (drive q eff).value).toNat : Int) = outZ outmax.toNat q.toInt eff.toInt := by
  obtain ⟨hval, hle⟩ := clamp01_toNat (qMul q eff).value
  rw [drive, (outputOf_toNat hle outmax).1, outZ, ← qMul_toInt, ← clamp01_toInt_eq_clampZ, ← hval]
  push_cast
  rfl

theorem drive_sat (q eff : Word) : (drive q eff).sat = clips (mulZ q.toInt eff.toInt) := qMul_sat q eff

/-! ### The transform in integers -/

/-- The transform's answer as the claims write it. -/
def Colour.toInts (c : Colour) : IntColour :=
  { r := c.r.toNat, g := c.g.toNat, b := c.b.toNat, sat := c.sat, degen := c.degen }

/-- The transform on words is the transform in exact integers (R212 to R218). -/
theorem correctColour_toInts (outmax : Half) (m : Nat → Word) (x y lum : Half) :
    (correctColour outmax m x y lum).toInts =
      correctZ outmax.toNat (fun i => (m i).toInt) x.toNat y.toNat lum.toNat := by
  unfold correctColour correctZ
  simp only [← unscaledRatio_toInts, Sat.toInts, ← clamp01_toInt_eq_clampZ, ← achievableY_toInts]
  split
  · rfl
  · next htotal =>
    have hdiv := (not_le.1 htotal).ne'
    simp only [Colour.toInts, outputOf_drive_toNat, drive_sat, qMin_toInt, qDiv_toInt hdiv, qDiv_sat hdiv, toQ_toInt,
      maxScale_toInt, maxScale_sat]

/-- Two outputs side by side in a result field (R111). -/
theorem ofNat_eq_append (r g : Half) : BitVec.ofNat 32 (r.toNat * 65536 + g.toNat) = r ++ g := by
  apply BitVec.eq_of_toNat_eq
  have hr := r.isLt
  have hg := g.isLt
  rw [BitVec.toNat_append, ← Nat.shiftLeft_add_eq_or_of_lt hg, Nat.shiftLeft_eq, BitVec.toNat_ofNat]
  omega

/-- CORRECT with a full calibration answers the transform, its fields as numbers (R108, R110, R111). -/
theorem exec_correct_fields {s : State} (hs : Calibrated s) (x y lum : Half) :
    let c := correctColour s.cfg.outmax s.readCal x y lum
    exec (.correct x y lum) s = .next (answered s 0x00 (flagBits c.sat false c.degen)
      (BitVec.ofNat 32 (c.r.toNat * 65536 + c.g.toNat)) (BitVec.ofNat 32 c.b.toNat)) := by
  intro c
  rw [← flagsByte_eq_flagBits, ofNat_eq_append, BitVec.ofNat_toNat]
  exact exec_correct_of_calibrated hs x y lum

/-- Settles O45: the answer is the transform's, which is `correctZ` in integers. -/
theorem correctComputesTheTransform : Obligations.CorrectComputesTheTransform := by
  unfold Obligations.CorrectComputesTheTransform
  refine ⟨encodedAs_correct, fun s x y lum =>
    ⟨fun hs => exec_correct_of_not_calibrated hs x y lum, fun hs => ?_⟩⟩
  have hexec := exec_correct_fields hs x y lum
  rw [← correctColour_toInts]
  generalize correctColour s.cfg.outmax s.readCal x y lum = c at hexec ⊢
  exact ⟨c.r, c.g, c.b, hexec, rfl, rfl, rfl⟩

/-! ### The colour-priority law -/

theorem clip_le_clip {z z' : Int} (h : z ≤ z') : clip z ≤ clip z' :=
  max_le_max_left _ (min_le_min_right _ h)

theorem clampZ_le_clampZ {v v' : Int} (h : v ≤ v') : clampZ v ≤ clampZ v' :=
  max_le_max_left _ (min_le_min_right _ h)

theorem clampZ_nonneg (v : Int) : 0 ≤ clampZ v := le_max_left ..

/-- The requested scale rises with the requested luminosity (R217). -/
theorem divZ_le_divZ {a a' b : Int} (ha : 0 ≤ a) (h : a ≤ a') (hb : 0 < b) : divZ a b ≤ divZ a' b := by
  unfold divZ
  rw [Int.tdiv_eq_ediv_of_nonneg (by omega), Int.tdiv_eq_ediv_of_nonneg (by omega)]
  exact Int.ediv_le_ediv hb (by omega)

/-- A channel's output rises with the scale its ratio is multiplied by (R218). -/
theorem outZ_le_outZ {outmax q e e' : Int} (houtmax : 0 ≤ outmax) (hq : 0 ≤ q) (h : e ≤ e') :
    outZ outmax q e ≤ outZ outmax q e' := by
  have hmul : mulZ q e ≤ mulZ q e' := Int.ediv_le_ediv (by decide) (mul_le_mul_of_nonneg_left h hq)
  exact Int.ediv_le_ediv (by decide) (mul_le_mul_of_nonneg_right (clampZ_le_clampZ (clip_le_clip hmul)) houtmax)

/-- A larger requested luminosity never lowers an output: it changes nothing before the requested scale, and each output
rises with that scale. -/
theorem correctZ_le_correctZ {outmax : Int} (houtmax : 0 ≤ outmax) (m : Nat → Int) (x y : Int) {lum lum' : Int}
    (hlum : 0 ≤ lum) (h : lum ≤ lum') :
    let z := correctZ outmax m x y lum
    let z' := correctZ outmax m x y lum'
    z.r ≤ z'.r ∧ z.g ≤ z'.g ∧ z.b ≤ z'.b := by
  unfold correctZ
  dsimp only
  split_ifs with htotal
  · exact ⟨le_rfl, le_rfl, le_rfl⟩
  · have hreq := clip_le_clip (divZ_le_divZ hlum h (not_le.1 htotal))
    have hout (u maxs : Int) := outZ_le_outZ houtmax (clampZ_nonneg u) (min_le_min_right maxs hreq)
    exact ⟨hout _ _, hout _ _, hout _ _⟩

/-- Settles O47: past the largest scale `eff` is that scale, and every step after `eff` is monotone. -/
theorem colourWinsOverBrightness : Obligations.ColourWinsOverBrightness := by
  unfold Obligations.ColourWinsOverBrightness
  constructor
  · intro outmax m x y lum c n q0 q1 q2 total htotal hlimit
    have hc : c.toInts = _ := correctColour_toInts outmax m x y lum
    unfold correctZ at hc
    dsimp only at hc
    rw [if_neg (not_le.2 htotal), min_eq_right hlimit.le] at hc
    exact ⟨congrArg IntColour.r hc, congrArg IntColour.g hc, congrArg IntColour.b hc⟩
  · intro outmax m x y lum lum' h c c'
    have hle := correctZ_le_correctZ (Int.natCast_nonneg outmax.toNat) (fun i => (m i).toInt) x.toNat y.toNat
      (Int.natCast_nonneg lum.toNat) (Int.ofNat_le.2 h)
    rw [← correctColour_toInts, ← correctColour_toInts] at hle
    obtain ⟨hr, hg, hb⟩ := hle
    exact ⟨Int.ofNat_le.1 hr, Int.ofNat_le.1 hg, Int.ofNat_le.1 hb⟩

/-! ### The identity calibration -/

/-- The transform reads the twelve calibration registers and no others (R36). -/
theorem correctColour_congr {m m' : Nat → Word} (h : ∀ i, i < 12 → m i = m' i) (outmax x y lum : Half) :
    correctColour outmax m x y lum = correctColour outmax m' x y lum := by
  unfold correctColour
  rw [h 0 (by decide), h 1 (by decide), h 2 (by decide), h 3 (by decide), h 4 (by decide), h 5 (by decide),
    h 6 (by decide), h 7 (by decide), h 8 (by decide), h 9 (by decide), h 10 (by decide), h 11 (by decide)]

/-- The identity matrix with peak luminosities 1 (R220). -/
def identityCal (i : Nat) : Word := if i ∈ [0, 4, 8, 9, 10, 11] then 0x00010000 else 0

/-- R220's numbers. -/
theorem correctColour_identityCal :
    correctColour 0xFFFF identityCal 0x8000 0x8000 0xFFFF =
      { r := 0x3FFE, g := 0x3FFE, b := 0x7FFE, sat := false, degen := false } := by
  decide

/-- Settles O48: the answer is the transform's under the identity calibration. -/
theorem identityCalibrationExample : Obligations.IdentityCalibrationExample := by
  unfold Obligations.IdentityCalibrationExample
  intro s hs houtmax hcal
  rw [exec_correct_fields hs, houtmax, correctColour_congr (m' := identityCal) hcal, correctColour_identityCal]
  rfl

end Sys2Proof.Machine
end

section
/-! Proofs for the family 60_exceptions.md: the failure window, the corrupt decoder state, and the fatal condition from
where it is entered to the reset that ends it. -/

namespace Sys2Proof.Machine

open Sys2Proof.Claims

/-! ### The decoder state after a content byte -/

theorem complete_st {s t : State} (h : s.complete = .ok t) : t.st = .idle := by
  rcases complete_cases h with rfl | rfl <;> rfl

theorem storeContent_st {s t : State} {o : Nat} {c : Byte} (h : s.storeContent o c = .ok t) : t.st = s.st := by
  rcases storeContent_cases h with rfl | rfl <;> rfl

/-- A frame's first byte leads to IDLE or READING (R141). -/
theorem firstContent_not_corrupt {s t : State} {c : Byte} (h : s.firstContent c = .ok t) : t.st ≠ .corrupt := by
  unfold State.firstContent at h
  dsimp only at h
  split at h
  · cases h; simp
  · split at h
    · cases h
    · split at h
      · simp [complete_st h]
      · cases h; simp

/-- A later byte leads to IDLE or leaves the decoder where it was (R142). -/
theorem laterContent_not_corrupt {s t : State} {c : Byte} (hc : s.st ≠ .corrupt) (h : s.laterContent c = .ok t) :
    t.st ≠ .corrupt := by
  unfold State.laterContent at h
  split at h
  · cases h
  · next u hu =>
    dsimp only at h
    split at h
    · simp [complete_st h]
    · cases h; exact (storeContent_st hu).symm ▸ hc

theorem content_not_corrupt {s t : State} {c : Byte} (hc : s.st ≠ .corrupt) (h : s.content c = .ok t) :
    t.st ≠ .corrupt := by
  unfold State.content at h
  split at h
  · exact firstContent_not_corrupt h
  · exact laterContent_not_corrupt hc h
  · cases h
  · cases h

/-! ### What the middle part of a receive event does to the registers of the failure handling -/

/-- The operations that raise a failure event (R231): RXERR and RXESCBAD. -/
def raisesFailure : Instr → Bool
  | .rxerr _ _ | .rxescbad _ => true
  | _                        => false

/-- A receive operation's own part, inside the frame of R139: it leaves the window and `fatal` to the end of the event,
never enters the corrupt decoder state, and has the failure bit `f`. -/
structure MiddlePart (f : Bool) (s : State) (d : RxDone) : Prop where
  failed : d.failed = f
  fatal : d.state.fatal = s.fatal
  fwin : d.state.fwin = s.fwin
  cfg : d.state.cfg = s.cfg
  notCorrupt : s.st ≠ .corrupt → d.state.st ≠ .corrupt

theorem middlePart_raiseFailure {s : State} {d : RxDone} {cause : FailureCause} (h : raiseFailure cause s = .ok d) :
    MiddlePart true s d := by
  cases h
  exact ⟨rfl, rfl, rfl, rfl, nofun⟩

theorem middlePart_content {s : State} {d : RxDone} {c : Byte} (h : noFailure (s.content c) = .ok d) :
    MiddlePart false s d := by
  obtain ⟨u, hu, rfl⟩ := noFailure_cases h
  obtain ⟨hfatal, hfwin, hcfg⟩ := content_window hu
  exact ⟨rfl, hfatal, hfwin, hcfg, fun hc => content_not_corrupt hc hu⟩

/-- Every receive operation is the frame of R139 around such a part. -/
theorem exec_receive_eq_onRx {i : Instr} (hi : i.isReceive = true) :
    ∃ m, (∀ s, exec i s = onRx m s) ∧ ∀ s d, m s = .ok d → MiddlePart (raisesFailure i) s d := by
  cases i with
  | rxerr flags => exact ⟨raiseFailure (.hwError flags), fun _ => rfl, fun _ _ => middlePart_raiseFailure⟩
  | rxescbad => exact ⟨raiseFailure .malformedEscape, fun _ => rfl, fun _ _ => middlePart_raiseFailure⟩
  | rxstart =>
    exact ⟨fun s => noFailure (.ok { s with st := .gotStart, esc := false, pos := 0 }), fun _ => rfl,
      fun | _, _, rfl => ⟨rfl, rfl, rfl, rfl, nofun⟩⟩
  | rxskip => exact ⟨fun s => noFailure (.ok s), fun _ => rfl, fun | _, _, rfl => ⟨rfl, rfl, rfl, rfl, id⟩⟩
  | rxesc =>
    exact ⟨fun s => noFailure (.ok { s with esc := true }), fun _ => rfl, fun | _, _, rfl => ⟨rfl, rfl, rfl, rfl, id⟩⟩
  | rxesc0 | rxesc1 => exact ⟨_, fun _ => rfl, fun _ _ h => { middlePart_content h with }⟩
  | rxlit => exact ⟨_, fun _ => rfl, fun _ _ => middlePart_content⟩
  | _ => cases hi

/-! ### The window and the threshold -/

/-- A word's failure bit (R147) is the one of the operation R96 selects for it: on each of R96's lines its tests decide
`isFailure`. -/
theorem isFailure_of_decodeRx {w : Wire} {ctx : RxContext} {x : XWord} {i : Instr} (h : decodeRx w ctx x = .op i) :
    isFailure w ctx.st ctx.esc x = raisesFailure i := by
  unfold decodeRx at h
  split_ifs at h <;> cases h <;> simp_all [isFailure, raisesFailure]

/-- A receive operation in a live block ends with its failure bit in the window and the threshold looked at (R240,
R241). -/
theorem exec_receive_window {i : Instr} {s t : State} (hi : i.isReceive = true) (hf : s.fatal = false)
    (hc : s.st ≠ .corrupt) (h : exec i s = .next t) :
    t.fwin = (eventEnd (raisesFailure i) s).fwin ∧ t.fatal = (eventEnd (raisesFailure i) s).fatal := by
  obtain ⟨m, hexec, hm⟩ := exec_receive_eq_onRx hi
  rw [hexec] at h
  rcases onRx_cases h with ⟨hfatal, -⟩ | ⟨-, hcorrupt, -⟩ | ⟨-, -, d, hd, rfl⟩
  · exact absurd hfatal (Bool.eq_false_iff.1 hf)
  · exact absurd hcorrupt hc
  · obtain ⟨hfailed, hfatal, hfwin, hcfg, -⟩ := hm s d hd
    rw [recordEvent_eq_eventEnd (hfatal.trans hf), hfailed]
    simp only [eventEnd, hfwin, hcfg, and_self]

/-- Settles O15: the word selects a receive operation, whose failure bit is the word's. -/
theorem windowCountsFailureEvents : Obligations.WindowCountsFailureEvents := by
  unfold Obligations.WindowCountsFailureEvents
  intro s x rest h hf hin
  obtain ⟨i, hdecode, hi, -, hsel⟩ := decodeRx_live (w := s.cfg.wire) (c := s.rxContext) hf h.notCorrupt x
  obtain ⟨t, hexec⟩ := exec_receive_next (h.takeInputs rest) hi hsel
  obtain ⟨hfwin, hfatal⟩ := exec_receive_window (s := { s with inputs := rest }) hi hf h.notCorrupt hexec
  have hbit : isFailure s.cfg.wire s.st s.esc x = raisesFailure i := isFailure_of_decodeRx hdecode
  refine ⟨t, (step_rx_op hin hdecode).trans hexec, hbit ▸ hfwin, ?_⟩
  rw [hfatal, hfwin]
  exact decide_eq_true_iff

/-! ### The corrupt decoder state -/

/-- A command leaves the decoder state and `fatal` alone (R43). -/
theorem step_command_st_fatal {s t : State} {c : CWord} {rest : List Input} (hin : s.inputs = .cmd c :: rest)
    (hstep : step s = .next t) : t.st = s.st ∧ t.fatal = s.fatal := by
  obtain ⟨-, -, hst, -, -, -, -, -, -, -, -, hfatal, -⟩ := commandsLeaveReceiverState s t c rest hin hstep
  exact ⟨hst, hfatal⟩

/-- A receive operation keeps the decoder out of the corrupt state. -/
theorem exec_receive_not_corrupt {i : Instr} {s t : State} (hi : i.isReceive = true) (hc : s.st ≠ .corrupt)
    (h : exec i s = .next t) : t.st ≠ .corrupt := by
  obtain ⟨m, hexec, hm⟩ := exec_receive_eq_onRx hi
  rw [hexec] at h
  rcases onRx_cases h with ⟨-, rfl⟩ | ⟨-, hcorrupt, -⟩ | ⟨-, -, d, hd, rfl⟩
  · exact hc
  · exact absurd hcorrupt hc
  · exact (hm s d hd).notCorrupt hc

/-- A step that starts outside the corrupt decoder state ends outside it, by the kind of the input. -/
theorem step_not_corrupt {s t : State} (hc : s.st ≠ .corrupt) (hstep : step s = .next t) : t.st ≠ .corrupt := by
  rcases step_cases hstep with ⟨-, rfl⟩ | ⟨rest, -, rfl⟩ | ⟨x, rest, -, hrx⟩ | ⟨c, rest, hin, -⟩
  · exact hc
  · simp [State.resetOf]
  · rcases hrx with ⟨-, rfl⟩ | ⟨-, hcorrupt, -⟩ | ⟨-, -, i, -, hi, -, hexec⟩
    · exact hc
    · exact absurd hcorrupt hc
    · exact exec_receive_not_corrupt (s := { s with inputs := rest }) hi hc hexec
  · exact (step_command_st_fatal hin hstep).1 ▸ hc

/-- Settles O16: no operation gets as far as its own part, and none leads there. -/
theorem corruptStateGoesFatal : Obligations.CorruptStateGoesFatal := by
  unfold Obligations.CorruptStateGoesFatal
  refine ⟨fun s x rest hc hf hin => step_rx_corrupt hin hf hc, fun s i hc hf hi => ?_, fun s t => step_not_corrupt⟩
  obtain ⟨m, hexec, -⟩ := exec_receive_eq_onRx hi
  exact (hexec s).trans (onRx_corrupt hf hc m)

/-! ### The fatal condition -/

/-- Settles O17: no operation gets as far as its own part. -/
theorem fatalIgnoresReceiveEvents : Obligations.FatalIgnoresReceiveEvents := by
  unfold Obligations.FatalIgnoresReceiveEvents
  refine ⟨fun s x rest hf hin => step_rx_fatal hin hf, fun s i hf hi => ?_⟩
  obtain ⟨m, hexec, -⟩ := exec_receive_eq_onRx hi
  exact (hexec s).trans (onRx_fatal hf m)

/-- A step without reset leaves a fatal block fatal, by the kind of the input. -/
theorem step_keeps_fatal {s t : State} (hne : s.inputs.head? ≠ some .reset) (hfatal : s.fatal = true)
    (hstep : step s = .next t) : t.fatal = true := by
  rcases hin : s.inputs with _ | ⟨x | c | _, rest⟩
  · rw [step_idle hin] at hstep
    cases hstep
    exact hfatal
  · rw [step_rx_fatal hin hfatal] at hstep
    cases hstep
    exact hfatal
  · exact (step_command_st_fatal hin hstep).2.trans hfatal
  · exact absurd (congrArg List.head? hin) hne

/-- Settles O18: a step that clears `fatal` took a reset, and reset clears it. -/
theorem onlyResetClearsFatal : Obligations.OnlyResetClearsFatal := by
  unfold Obligations.OnlyResetClearsFatal
  constructor
  · intro s t hstep hfatal hcleared
    by_contra hne
    exact absurd (step_keeps_fatal hne hfatal hstep) (Bool.eq_false_iff.1 hcleared)
  · intro s hreset
    obtain ⟨rest, hin⟩ := List.head?_eq_some_iff.1 hreset
    exact ⟨_, step_reset hin, rfl⟩

end Sys2Proof.Machine
end

section
/-! Proofs for the family 70_reset_and_hazards.md: the reset input at any point of a run. -/

namespace Sys2Proof.Machine

/-- Settles O50: the step takes the reset, whose items are those of the reset state of the same configuration, and these
have the table's values (`resetStateHasSpecifiedValues`). -/
theorem resetInputRestoresResetState : Obligations.ResetInputRestoresResetState := by
  unfold Obligations.ResetInputRestoresResetState
  intro s rest hin
  obtain ⟨-, htable⟩ := resetStateHasSpecifiedValues
  obtain ⟨-, hst, -, hitems⟩ := htable s.cfg
  exact ⟨_, step_reset hin, hst, hitems⟩

end Sys2Proof.Machine
end
